-- ==== Sys2Proof/Word.lean ====
section
/-!
DEFINITION. The fixed-width words of the block that the spec treats as bits: the command word (rule R61), the octet
(rule R10) and the 16-bit character (rule R85). Registers of other widths are written `BitVec w` where they stand.
-/

namespace Sys2Proof

/-- Eight frame bits, `F[8k]` in bit 7 (rule R10). -/
abbrev Octet := BitVec 8

/-- The 16-bit value a host writes to `CMD` (rule R61). -/
abbrev CommandWord := BitVec 16

/-- A character inside the block: "a 16-bit unsigned code unit" (rule R85). -/
abbrev CharUnit := BitVec 16

/-- A code of the 7-bit default alphabet (rule R86). -/
abbrev Code7 := BitVec 7

end Sys2Proof
end

