-- ==== Sys2Proof/Config.lean ====
section
/-!
DEFINITION. What an instance of the block fixes when it is built (rule R7, rule R159), and the one source of the values
the spec leaves unspecified (rule R39, 93_implementation_defined.md U9). The values the spec's worked examples use for
the parameters stand in Sys2Proof/Machine/Parameters.lean.
-/

namespace Sys2Proof

/-- Wire order of the three subfields of the zone octet (rule R107, parameter `TZ_LAYOUT`). -/
inductive TzLayout where
  | u4s1t3  -- units digit, sign, tens digit: the value the spec uses
  | s1t3u4  -- sign, tens digit, units digit: the alternative
  deriving DecidableEq, Repr

/-- The parameters of rule R7. `HOST_BUS` is not modelled there and has no field; `ALPHA_SEL_DEFAULT` is fixed by the
source and is `alphaSelDefault` below. -/
structure Params where
  /-- `FRAME_CAP`: capacity of the frame buffer in bits. -/
  frameCap : Nat
  /-- `NN_MAX_CHARS`: capacity of `CHARBUF` in characters. -/
  nnMaxChars : Nat
  /-- `ALPHA7`: the character of each of the 128 codes. -/
  alpha7 : Vector CharUnit 128
  /-- `ALPHA_SEL_WIDE`: header selector of the 16-bit alphabet. -/
  alphaSelWide : BitVec 3
  /-- `SVC_KNOWN_SET`: the service-type codes of the enumeration. -/
  svcKnownSet : List (BitVec 4)
  /-- `CENTURY_BASE`: added to a decoded two-digit year. -/
  centuryBase : Nat
  /-- `TZ_LAYOUT`. -/
  tzLayout : TzLayout
  deriving DecidableEq, Repr

/-- `ALPHA_SEL_DEFAULT = 0b000`, fixed by the source (rule R7, rule R91). -/
def alphaSelDefault : BitVec 3 := 0#3

/-- What the spec requires of the parameters: `FRAME_CAP` a multiple of 8 and at most 65528 (rule R7), `ALPHA7`
injective (rule R86; total by its type), `CENTURY_BASE` at most 65370 (rule R114). Two clauses are DEDUCED
(notes/assumptions/9.md): `NN_MAX_CHARS` at most 255, so that `NN_LEN <- sz` fits its 8 bits as rule R11 promises, and
`ALPHA_SEL_WIDE` different from `ALPHA_SEL_DEFAULT`, as the count of "six other selector values" in rule R91 needs. -/
abbrev Params.wf (p : Params) : Prop :=
  p.frameCap % 8 = 0 ∧ p.frameCap ≤ 65528 ∧ p.nnMaxChars ≤ 255 ∧ p.alpha7.toList.Nodup ∧
    p.alphaSelWide ≠ alphaSelDefault ∧ p.centuryBase ≤ 65370

/-- FREE VALUE (notes/assumptions/2.md, notes/assumptions/3.md). What the register or buffer element of register index
`index` and width `w` holds after the reset number `epoch`, where rule R39 leaves it unspecified: "it holds some value
of its width, the spec does not say which, and two resets need not give the same one". It has no body: nothing in Lean
can prove a value of it. -/
opaque Config.unspecified (epoch index w : Nat) : BitVec w

end Sys2Proof
end

