-- ==== Sys2Proof/Machine/Parameters.lean ====
section
/-!
DEFINITION. The values of the parameters that the spec uses "in every worked example" (rule R7), and the two directions
of the 7-bit alphabet (rule R86). Every one of the values but `ALPHA_SEL_DEFAULT` is open: no meaning reads them, only
`State.reset` and the tests do (notes/assumptions/1.md).
-/

namespace Sys2Proof.Machine

/-- The table of rule R86, one row of eight codes a line. [from general knowledge, not in source, says the spec] -/
def documentedAlpha7 : Vector CharUnit 128 :=
  ⟨#[
    0x0040#16, 0x00A3#16, 0x0024#16, 0x00A5#16, 0x00E8#16, 0x00E9#16, 0x00F9#16, 0x00EC#16,
    0x00F2#16, 0x00C7#16, 0x000A#16, 0x00D8#16, 0x00F8#16, 0x000D#16, 0x00C5#16, 0x00E5#16,
    0x0394#16, 0x005F#16, 0x03A6#16, 0x0393#16, 0x039B#16, 0x03A9#16, 0x03A0#16, 0x03A8#16,
    0x03A3#16, 0x0398#16, 0x039E#16, 0x001B#16, 0x00C6#16, 0x00E6#16, 0x00DF#16, 0x00C9#16,
    0x0020#16, 0x0021#16, 0x0022#16, 0x0023#16, 0x00A4#16, 0x0025#16, 0x0026#16, 0x0027#16,
    0x0028#16, 0x0029#16, 0x002A#16, 0x002B#16, 0x002C#16, 0x002D#16, 0x002E#16, 0x002F#16,
    0x0030#16, 0x0031#16, 0x0032#16, 0x0033#16, 0x0034#16, 0x0035#16, 0x0036#16, 0x0037#16,
    0x0038#16, 0x0039#16, 0x003A#16, 0x003B#16, 0x003C#16, 0x003D#16, 0x003E#16, 0x003F#16,
    0x00A1#16, 0x0041#16, 0x0042#16, 0x0043#16, 0x0044#16, 0x0045#16, 0x0046#16, 0x0047#16,
    0x0048#16, 0x0049#16, 0x004A#16, 0x004B#16, 0x004C#16, 0x004D#16, 0x004E#16, 0x004F#16,
    0x0050#16, 0x0051#16, 0x0052#16, 0x0053#16, 0x0054#16, 0x0055#16, 0x0056#16, 0x0057#16,
    0x0058#16, 0x0059#16, 0x005A#16, 0x00C4#16, 0x00D6#16, 0x00D1#16, 0x00DC#16, 0x00A7#16,
    0x00BF#16, 0x0061#16, 0x0062#16, 0x0063#16, 0x0064#16, 0x0065#16, 0x0066#16, 0x0067#16,
    0x0068#16, 0x0069#16, 0x006A#16, 0x006B#16, 0x006C#16, 0x006D#16, 0x006E#16, 0x006F#16,
    0x0070#16, 0x0071#16, 0x0072#16, 0x0073#16, 0x0074#16, 0x0075#16, 0x0076#16, 0x0077#16,
    0x0078#16, 0x0079#16, 0x007A#16, 0x00E4#16, 0x00F6#16, 0x00F1#16, 0x00FC#16, 0x00E0#16
  ], rfl⟩

/-- The "value in this spec" column of rule R7. -/
def documentedParams : Params where
  frameCap := 2048
  nnMaxChars := 93
  alpha7 := documentedAlpha7
  alphaSelWide := 1#3
  svcKnownSet := [1#4, 2#4, 4#4, 8#4, 9#4, 10#4, 11#4]
  centuryBase := 2000
  tzLayout := .u4s1t3

/-- `dec7(code) = ALPHA7(code)` (rule R86). -/
def dec7 (p : Params) (code : Code7) : CharUnit := p.alpha7.toList.getD code.toNat 0#16

/-- `enc7(ch)`: "the unique code with `ALPHA7(code) = ch` when one exists and is undefined otherwise" (rule R86). -/
def enc7 (p : Params) (ch : CharUnit) : Option Code7 :=
  (p.alpha7.toList.findIdx? (fun c => c == ch)).map (fun k => BitVec.ofNat 7 k)

/-- `enc7` of a character list, undefined when it is undefined for one of them (the loop of rule R93). -/
def enc7All (p : Params) : List CharUnit → Option (List Code7)
  | [] => some []
  | ch :: rest =>
    match enc7 p ch, enc7All p rest with
    | some code, some codes => some (code :: codes)
    | _, _ => none

end Sys2Proof.Machine
end

