-- ==== Sys2Proof/Machine/State.lean ====
section
/-!
DEFINITION. The state of the block (rule R14), the host's side of it (rules R13, R16), the reset (rule R39) and the
reasons a step could stop (there are none that a step gives).
-/

namespace Sys2Proof.Machine

/-- The fault codes 1 to 9 of rule R138. A command that meets one ends in a NEXT state (rule R139): these are values of
`STATUS.CODE`, not stops of the machine. -/
inductive FaultCode where
  | illegalCommand
  | truncated
  | frameOverflow
  | valueTooWide
  | fieldOutOfContract
  | textOverflow
  | unmappableChar
  | reservedAlphabet
  | badLength
  deriving DecidableEq, Repr

/-- Cells of `w` bits by index, strictly rising; an index that is not listed has had nothing written to it since the
last reset and has no value of its own (notes/assumptions/3.md). -/
abbrev Memory (w : Nat) := List (Nat × BitVec w)

/-- The canonical form: indices strictly rising. No entry can equal what an unlisted index holds, since that is no
value at all. -/
abbrev Memory.wf {w : Nat} (m : Memory w) : Prop := m.Pairwise (fun x y => x.1 < y.1)

/-- A bank of calendar fields (rule R31): `CALL_*` or `CALU_*`. -/
structure CalBank where
  year : BitVec 16
  mon  : BitVec 8
  day  : BitVec 8
  hour : BitVec 8
  min  : BitVec 8
  sec  : BitVec 8
  deriving DecidableEq, Repr

/-- The state of the block, "exactly" that of rule R14, and one field of the model's own, `epoch`. -/
structure Block where
  /-- THE MODEL'S OWN: how many resets came before the last one; it selects the free values of `Config.unspecified`. -/
  epoch : Nat
  /-- `STATUS` (rule R18): `CODE` in bits 4:0. -/
  status : BitVec 8
  /-- `FLTS` (rule R19): one sticky bit per fault code. -/
  flts : BitVec 16
  /-- `CURSOR` (rule R20). -/
  cursor : BitVec 16
  /-- `FRAME_LEN` (rule R21). -/
  frameLen : BitVec 16
  /-- `SEG_BASE` (rule R22). -/
  segBase : BitVec 16
  /-- `SEG_LEN` (rule R22). -/
  segLen : BitVec 16
  /-- `FVAL` (rule R23). -/
  fval : BitVec 64
  /-- `SVC_CODE` (rule R24). -/
  svcCode : BitVec 4
  /-- `SVC_KNOWN` (rule R24). -/
  svcKnown : BitVec 1
  /-- `REJ_CAUSE` (rule R25). -/
  rejCause : BitVec 32
  /-- `SRES` (rule R26). -/
  sres : BitVec 32
  /-- `RAND_HI` (rule R27). -/
  randHi : BitVec 64
  /-- `RAND_LO` (rule R27). -/
  randLo : BitVec 64
  /-- `RAND_EXP[0..15]` (rule R28). -/
  randExp : Vector Octet 16
  /-- `NN_ALPHA` (rule R29). -/
  nnAlpha : BitVec 3
  /-- `NN_CI` (rule R29). -/
  nnCi : BitVec 1
  /-- `NN_SPARE` (rule R29). -/
  nnSpare : BitVec 3
  /-- `NN_EXT` (rule R29). -/
  nnExt : BitVec 1
  /-- `NN_LEN` (rule R29). -/
  nnLen : BitVec 8
  /-- `NN_OCTETS` (rule R29). -/
  nnOctets : BitVec 8
  /-- `CHARBUF` (rule R30): character `i` under index `i`. -/
  charbuf : Memory 16
  /-- `A_CHAR` (rule R30). -/
  aChar : BitVec 16
  /-- `A_CODE` (rule R30). -/
  aCode : BitVec 7
  /-- `TK` (rule R31): 0 Local, 1 Universal. -/
  tk : BitVec 1
  /-- `CALL_*`, the local bank (rule R31). -/
  call : CalBank
  /-- `CALU_*`, the universal bank (rule R31). -/
  calu : CalBank
  /-- `TZ_OFF_SEC`, two's complement (rule R32). -/
  tzOffSec : BitVec 32
  /-- `TZ_Q`, two's complement (rule R32). -/
  tzQ : BitVec 8
  /-- `SM_OCTET` (rule R32). -/
  smOctet : BitVec 8
  /-- `BCD_VAL` (rule R33). -/
  bcdVal : BitVec 8
  /-- `BCD_OCTET` (rule R33). -/
  bcdOctet : BitVec 8
  /-- `FRAME` (rule R34): octet `k` under index `k`. -/
  frame : List Host.Cell
  deriving DecidableEq, Repr

/-- What the outside world does to the block, one step each: a host access of rule R35 or R36, or the reset of rule
R156. A value a host writes is a number; each register takes what rule R36(a) says of it. -/
inductive Event where
  /-- The host writes `value` to register index `index`; index `0x00` is `CMD` and executes a command (rule R17). -/
  | write (index value : Nat)
  /-- The host reads register index `index`. -/
  | read (index : Nat)
  /-- The reset "applied from outside by means the spec does not model" (rule R156). -/
  | reset
  deriving DecidableEq, Repr

/-- The machine: the block, the parameters its instance was built with, and the outside world's side. -/
structure State where
  /-- The instance's parameters (rule R7). Not state of the block: no step changes them (notes/assumptions/1.md). -/
  params : Params
  /-- The state of the block (rule R14). -/
  block : Block
  /-- THE MODEL'S OWN: what the outside world will do next, first action first; "it lives in the host" (rule R14, rule
  R16; notes/assumptions/4.md). -/
  pending : List Event
  /-- THE MODEL'S OWN: what the last host read returned, in the host (rule R36; notes/assumptions/5.md). -/
  lastRead : Option Nat
  deriving DecidableEq, Repr

/-- Reasons to stop with a fault: none. Every fault of the spec is a result code the block goes on from (rules R139,
R151) and "no situation stops the block" (93_implementation_defined.md part 1, `stuck`; rule R169). No step raises one,
so the type is safe. -/
inductive Fault where
  deriving DecidableEq, Repr

/-- Reasons to refuse. -/
inductive Refusal where
  /-- Raised by `exec` alone, in the arm of an instruction that has no meaning yet; safe. Every arm has its meaning, so
  no step raises it. -/
  | notModelled (mnemonic : String)
  deriving DecidableEq, Repr

/-- A bank after reset: every field unspecified (rule R39); `first` is the register index of its year (rule R35). -/
def CalBank.afterReset (epoch first : Nat) : CalBank where
  year := Config.unspecified epoch first 16
  mon := Config.unspecified epoch (first + 1) 8
  day := Config.unspecified epoch (first + 2) 8
  hour := Config.unspecified epoch (first + 3) 8
  min := Config.unspecified epoch (first + 4) 8
  sec := Config.unspecified epoch (first + 5) 8

/-- The block after reset number `epoch` (rule R39): seven registers are 0, every other one is unspecified, and nothing
is listed in the two buffers, whose elements are all unspecified. -/
def Block.afterReset (epoch : Nat) : Block where
  epoch := epoch
  status := 0#8
  flts := 0#16
  cursor := 0#16
  frameLen := 0#16
  segBase := 0#16
  segLen := 0#16
  fval := Config.unspecified epoch 0x08 64
  svcCode := Config.unspecified epoch 0x10 4
  svcKnown := Config.unspecified epoch 0x11 1
  rejCause := Config.unspecified epoch 0x12 32
  sres := Config.unspecified epoch 0x13 32
  randHi := Config.unspecified epoch 0x18 64
  randLo := Config.unspecified epoch 0x19 64
  randExp := #v[Config.unspecified epoch 0x20 8, Config.unspecified epoch 0x21 8, Config.unspecified epoch 0x22 8,
    Config.unspecified epoch 0x23 8, Config.unspecified epoch 0x24 8, Config.unspecified epoch 0x25 8,
    Config.unspecified epoch 0x26 8, Config.unspecified epoch 0x27 8, Config.unspecified epoch 0x28 8,
    Config.unspecified epoch 0x29 8, Config.unspecified epoch 0x2A 8, Config.unspecified epoch 0x2B 8,
    Config.unspecified epoch 0x2C 8, Config.unspecified epoch 0x2D 8, Config.unspecified epoch 0x2E 8,
    Config.unspecified epoch 0x2F 8]
  nnAlpha := Config.unspecified epoch 0x30 3
  nnCi := Config.unspecified epoch 0x31 1
  nnSpare := Config.unspecified epoch 0x32 3
  nnExt := Config.unspecified epoch 0x33 1
  nnLen := Config.unspecified epoch 0x34 8
  nnOctets := Config.unspecified epoch 0x35 8
  charbuf := []
  aChar := Config.unspecified epoch 0x38 16
  aCode := Config.unspecified epoch 0x39 7
  tk := 0#1
  call := CalBank.afterReset epoch 0x41
  calu := CalBank.afterReset epoch 0x49
  tzOffSec := Config.unspecified epoch 0x50 32
  tzQ := Config.unspecified epoch 0x51 8
  smOctet := Config.unspecified epoch 0x52 8
  bcdVal := Config.unspecified epoch 0x53 8
  bcdOctet := Config.unspecified epoch 0x54 8
  frame := []

/-- The machine right after its first reset, for an instance built with the parameters `p`; the host has nothing planned
and has read nothing. -/
def State.resetWith (p : Params) : State where
  params := p
  block := Block.afterReset 0
  pending := []
  lastRead := none

/-- The machine right after reset, for the instance the spec's examples use (rules R7, R39). -/
def State.reset : State := State.resetWith documentedParams

end Sys2Proof.Machine
end

