-- ==== Sys2Proof/Machine/Flags.lean ====
section
/-!
DEFINITION. The block's only flags, `STATUS.CODE` and `FLTS` (rules R18, R19, R37): the number of each fault code, what a
command leaves in the two registers, and how they read.
-/

namespace Sys2Proof.Machine

/-- The code of a fault (the table of rule R138). -/
def faultNumber : FaultCode → Nat
  | .illegalCommand => 1
  | .truncated => 2
  | .frameOverflow => 3
  | .valueTooWide => 4
  | .fieldOutOfContract => 5
  | .textOverflow => 6
  | .unmappableChar => 7
  | .reservedAlphabet => 8
  | .badLength => 9

/-- `STATUS` after a command that met none of its fault conditions: code 0, `OK` (rule R138, rule R70(c)). -/
def statusOk : BitVec 8 := 0#8

/-- `STATUS` after a command that faulted: the fault's code in bits 4:0, bits 7:5 zero (rule R18). -/
def statusOf (c : FaultCode) : BitVec 8 := BitVec.ofNat 8 (faultNumber c)

/-- `FLTS` after a command that faulted: the bit of its code is set, the others stay (rule R19). -/
def fltsWith (flts : BitVec 16) (c : FaultCode) : BitVec 16 := flts ||| (1#16 <<< faultNumber c)

/-- What a host read of `STATUS` sees: "Bits 7:5 read as 0" (rule R18). -/
def statusRead (status : BitVec 8) : BitVec 8 := status &&& 0x1F#8

/-- What a host read of `FLTS` sees: "Bit 0 and bits 15:10 read as 0" (rule R19). -/
def fltsRead (flts : BitVec 16) : BitVec 16 := flts &&& 0x03FE#16

end Sys2Proof.Machine
end

