-- ==== Sys2Proof/Machine/Ops.lean ====
section
/-!
DEFINITION. The named operations over the two buffers and the registers: cells, octets and bits of the frame, `MemRead`
and `MemWrite` (rule R11), `Normalise` (rule R72), and the end of every command (rule R70): success, or the entry of a
fault (rule R139). The block has no return from a fault: "there is nothing to return from" (rule R151), and the next
command runs as it would have.
-/

namespace Sys2Proof.Machine

/-! ## Cells -/

/-- The value listed for an index, if something has been written to it since the last reset. -/
def Memory.read? {w : Nat} : Memory w → Nat → Option (BitVec w)
  | [], _ => none
  | (a, v) :: rest, k => if a = k then some v else Memory.read? rest k

/-- Write one cell, keeping the indices strictly rising. -/
def Memory.write {w : Nat} : Memory w → Nat → BitVec w → Memory w
  | [], k, v => [(k, v)]
  | (a, u) :: rest, k, v =>
    if k < a then (k, v) :: (a, u) :: rest
    else if k = a then (k, v) :: rest
    else (a, u) :: Memory.write rest k v

/-! ## The frame, by octet and by bit (rules R10, R34) -/

/-- Octet `k` of a frame memory. An octet nothing has written since reset number `epoch` holds an unspecified value
(rule R39; notes/assumptions/3.md). `0x1000 + k` is its register index (rule R35). -/
def frameOctet (epoch : Nat) (f : Memory 8) (k : Nat) : Octet :=
  (Memory.read? f k).getD (Config.unspecified epoch (0x1000 + k) 8)

/-- Bit `i` of the frame: "`F[8k]` has weight 128" in octet `k` (rule R10). -/
def frameBit (epoch : Nat) (f : Memory 8) (i : Nat) : Bool :=
  (frameOctet epoch f (i / 8)).getLsbD (7 - i % 8)

/-- An octet with the bit of weight `2^j` replaced. -/
def octetSetBit (o : Octet) (j : Nat) (v : Bool) : Octet :=
  if v then o ||| (1#8 <<< j) else o &&& ~~~(1#8 <<< j)

/-- `F[i] <- v` (rule R11). -/
def frameSetBit (epoch : Nat) (f : Memory 8) (i : Nat) (v : Bool) : Memory 8 :=
  Memory.write f (i / 8) (octetSetBit (frameOctet epoch f (i / 8)) (7 - i % 8) v)

/-- Write a list of bits at consecutive bit addresses, the first at `pos`. -/
def frameWriteBits (epoch : Nat) : Memory 8 → Nat → List Bool → Memory 8
  | f, _, [] => f
  | f, pos, v :: rest => frameWriteBits epoch (frameSetBit epoch f pos v) (pos + 1) rest

/-- The bits of an `n`-bit field of value `v` in wire order, most significant first (rule R42). -/
def fieldBits (n v : Nat) : List Bool := (List.range n).map (fun j => v.testBit (n - 1 - j))

/-- The number whose binary digits are the list, most significant first. -/
def bitsNat (bs : List Bool) : Nat := bs.foldl (fun a v => 2 * a + v.toNat) 0

/-- `MemRead(pos, n)`: the number `Σ_{j=0..n-1} F[pos+j] · 2^(n-1-j)` (rule R11). -/
def memRead (epoch : Nat) (f : Memory 8) (pos n : Nat) : Nat :=
  bitsNat ((List.range n).map (fun j => frameBit epoch f (pos + j)))

/-- `MemWrite(pos, n, v)`: for `j` in `0..n-1`: `F[pos+j] <- v[n-1-j]` (rule R11). -/
def memWrite (epoch : Nat) (f : Memory 8) (pos n v : Nat) : Memory 8 :=
  frameWriteBits epoch f pos (fieldBits n v)

/-- Consecutive `MemWrite`s: a list of fields, each its width and its value, the first at `pos`. -/
def memWriteFields (epoch : Nat) : Memory 8 → Nat → List (Nat × Nat) → Memory 8
  | f, _, [] => f
  | f, pos, (n, v) :: rest => memWriteFields epoch (memWrite epoch f pos n v) (pos + n) rest

/-- Where a bit of a window goes when each octet of the window is reversed: `8m + t` to `8m + 7 - t` (rule R72). -/
def octetReversed (i : Nat) : Nat := 8 * (i / 8) + (7 - i % 8)

/-- `Normalise(base, len)`: the bits of each complete group of eight, counted from `base`, reversed in place; all at
once, so every bit is read from the old frame (rule R72). -/
def normalise (epoch : Nat) (f : Memory 8) (base len : Nat) : Memory 8 :=
  frameWriteBits epoch f base
    ((List.range (8 * (len / 8))).map (fun i => frameBit epoch f (base + octetReversed i)))

/-- Bit `i` of the block's frame. -/
def Block.bit (b : Block) (i : Nat) : Bool := frameBit b.epoch b.frame i

/-- Octet `k` of the block's frame. -/
def Block.octet (b : Block) (k : Nat) : Octet := frameOctet b.epoch b.frame k

/-! ## The character buffer -/

/-- `CHARBUF[i]`: an element nothing has written since the last reset holds an unspecified value (rule R39). `0x100 + i`
is its register index (rule R35). -/
def Block.char (b : Block) (i : Nat) : CharUnit :=
  (Memory.read? b.charbuf i).getD (Config.unspecified b.epoch (0x100 + i) 16)

/-- `CHARBUF[0 .. sz-1]`. -/
def Block.chars (b : Block) (sz : Nat) : List CharUnit := (List.range sz).map b.char

/-- Write characters to consecutive elements, the first at `i`. -/
def charsWrite : Memory 16 → Nat → List CharUnit → Memory 16
  | m, _, [] => m
  | m, i, ch :: rest => charsWrite (Memory.write m i ch) (i + 1) rest

/-! ## The end of a command (rule R70) -/

/-- Fault entry (rule R139), for every command and every fault: `STATUS.CODE <- code`, `FLTS[code] <- 1`, "nothing else
changes". There is no handler, no saved program counter and no mode to change. -/
def Block.raise (b : Block) (c : FaultCode) : Block :=
  { b with status := statusOf c, flts := fltsWith b.flts c }

/-- The end of a command from the block it started in and the outcome of its checks and Operation: a fault discards the
Operation and enters the fault; a success keeps the writes and sets `STATUS.CODE <- 0` (rule R70(b), (c)). -/
def Block.finish (b : Block) : Except FaultCode Block → Block
  | .error c => b.raise c
  | .ok b' => { b' with status := statusOk }

/-- A command's checks and Operation, in the rule's order: a function of the parameters and the block alone (rule R38). -/
abbrev Operation := Params → Block → Except FaultCode Block

/-- Run a command's Operation: "one indivisible step" (rule R13) that touches neither the parameters nor the host. -/
def State.command (s : State) (op : Operation) : State :=
  { s with block := s.block.finish (op s.params s.block) }

/-- The machine after a command that ended with fault `c`. -/
def State.raise (s : State) (c : FaultCode) : State := { s with block := s.block.raise c }

end Sys2Proof.Machine
end

