-- ==== Sys2Proof/Machine/Operands.lean ====
section
/-!
DEFINITION. The one addressing mode, "at `CURSOR`, then advance `CURSOR`" (rule R71), and the operand transformations the
families share: the digit-swapped octet (rules R101, R102), the zone octet (rules R105 to R107), the packed default
alphabet text and the wide text (rules R89 to R92).
-/

namespace Sys2Proof.Machine

/-! ## At `CURSOR` -/

/-- `CURSOR + n > FRAME_LEN`, on unbounded integers (rules R20, R50). -/
def Block.overrun (b : Block) (n : Nat) : Bool := decide (b.frameLen.toNat < b.cursor.toNat + n)

/-- The `n`-bit field at offset `off` from `CURSOR`. -/
def Block.readAt (b : Block) (off n : Nat) : Nat := memRead b.epoch b.frame (b.cursor.toNat + off) n

/-- Write fields one after another from `CURSOR` on, and advance `CURSOR` past them. -/
def Block.writeFields (b : Block) (fields : List (Nat × Nat)) : Block :=
  { b with
    frame := memWriteFields b.epoch b.frame b.cursor.toNat fields
    cursor := BitVec.ofNat 16 (b.cursor.toNat + (fields.map Prod.fst).sum) }

/-- `CURSOR <- CURSOR + n`. A successful command ends with `CURSOR ≤ FRAME_LEN`, so the sum fits (rule R20). -/
def Block.advance (b : Block) (n : Nat) : Block :=
  { b with cursor := BitVec.ofNat 16 (b.cursor.toNat + n) }

/-! ## Decimal digits -/

/-- The two nibbles of a two-digit value, units digit first (rule R101). -/
def digitFields (v : Nat) : List (Nat × Nat) := [(4, v % 10), (4, v / 10)]

/-- `BcdOctet(v) = (v mod 10) ‖ (v div 10)` (rule R102). -/
def bcdOctetOf (v : Nat) : Octet := BitVec.ofNat 8 (16 * (v % 10) + v / 10)

/-- `BcdValue(o) = o[7:4] + 10·o[3:0]` (rule R102), on all 256 octets. -/
def bcdValueOf (o : Octet) : Nat := (o.extractLsb' 4 4).toNat + 10 * (o.extractLsb' 0 4).toNat

/-! ## The zone octet -/

/-- `q = tdiv(TZ_OFF_SEC, 900)`, the offset read as two's complement, truncated toward zero (rule R105). -/
def quarterHours (off : BitVec 32) : Int := Int.tdiv off.toInt 900

/-- The sign bit of the zone octet, taken from the quotient (rule R106). -/
def zoneSign (q : Int) : Nat := if q < 0 then 1 else 0

/-- The largest zone magnitude: its tens digit has three bits (rule R106). -/
def zoneMax : Nat := 79

/-- The subfields of the zone octet on the wire, per `TZ_LAYOUT` (rules R107, R113). -/
def zoneFields (layout : TzLayout) (u s t : Nat) : List (Nat × Nat) :=
  match layout with
  | .u4s1t3 => [(4, u), (1, s), (3, t)]
  | .s1t3u4 => [(1, s), (3, t), (4, u)]

/-- `ZoneOctet(u, s, t)` as a number, per `TZ_LAYOUT` (rule R107). -/
def zoneOctetOf (layout : TzLayout) (u s t : Nat) : Octet :=
  match layout with
  | .u4s1t3 => BitVec.ofNat 8 (16 * u + 8 * s + t)
  | .s1t3u4 => BitVec.ofNat 8 (128 * s + 16 * t + u)

/-- The value of zone subfields: `m = u + 10·t`, negated when the sign bit is 1 (rules R106, R109). -/
def zoneValue (u s t : Nat) : Int := if s = 1 then -((u + 10 * t : Nat) : Int) else ((u + 10 * t : Nat) : Int)

/-- The signed quarter-hours of a zone octet, its subfields taken per `TZ_LAYOUT` (rule R109). -/
def zoneOfOctet (layout : TzLayout) (o : Octet) : Int :=
  match layout with
  | .u4s1t3 => zoneValue (o.extractLsb' 4 4).toNat (o.extractLsb' 3 1).toNat (o.extractLsb' 0 3).toNat
  | .s1t3u4 => zoneValue (o.extractLsb' 0 4).toNat (o.extractLsb' 7 1).toNat (o.extractLsb' 4 3).toNat

/-! ## Text -/

/-- `numSpareBits = (8 - (sz*7) mod 8) mod 8` (rule R89). -/
def spareCount (sz : Nat) : Nat := (8 - (7 * sz) % 8) % 8

/-- The bits of a code, "bit 0 of the code first" (rule R90, step 1). -/
def codeBits (code : Code7) : List Bool := (List.range 7).map (fun j => code.getLsbD j)

/-- The temporary bit region `T` of rule R90 after steps 1 and 2: every code, then the zero spare bits. -/
def textStream (codes : List Code7) : List Bool :=
  codes.flatMap codeBits ++ List.replicate (spareCount codes.length) false

/-- `Pack7(codes)` (rule R90): the region normalised over its `P` bits (step 3). -/
def pack7 (codes : List Code7) : List Bool :=
  (List.range (7 * codes.length + spareCount codes.length)).map
    (fun i => (textStream codes).getD (octetReversed i) false)

/-- Code `k` of the text at bit address `base`, by `Unpack7` (rules R90, R94): `Σ_{j=0..6} S[7k + j] · 2^j` with
`S[8m + t] = F[base + 8m + 7 - t]`. -/
def unpackCode (epoch : Nat) (f : Memory 8) (base k : Nat) : Code7 :=
  BitVec.ofNat 7
    (bitsNat ((List.range 7).map (fun j => frameBit epoch f (base + octetReversed (7 * k + (6 - j))))))

/-- The wide text: "Each character is written directly as a 16-bit field" (rule R92). -/
def wideText (chars : List CharUnit) : List Bool := chars.flatMap (fun ch => fieldBits 16 ch.toNat)

/-- `header = 1 ‖ NN_ALPHA ‖ NN_CI ‖ spare` (rule R91). -/
def nnHeader (alpha : BitVec 3) (ci : BitVec 1) (spare : Nat) : Octet :=
  1#1 ++ alpha ++ ci ++ BitVec.ofNat 3 spare

end Sys2Proof.Machine
end

