-- ==== Sys2Proof/Machine/AlphabetCodec.lean ====
section
/-!
DEFINITION. The alphabet codec and the network-name element: `A7.ENC`, `A7.DEC`, `NN.WR`, `NN.RD`
(41_alphabet_codec.md).
-/

namespace Sys2Proof.Machine

/-- `A7.ENC`, Operation (rule R87). -/
def opA7Enc : Operation := fun p b =>
  match enc7 p b.aChar with
  | none => .error .unmappableChar
  | some code => .ok { b with aCode := code }

/-- `A7.ENC` (rule R87). -/
def execA7Enc (s : State) : Host.Outcome State Fault Refusal := .next (s.command opA7Enc)

/-- `A7.DEC`, Operation (rule R88): it never faults. -/
def opA7Dec : Operation := fun p b => .ok { b with aChar := dec7 p b.aCode }

/-- `A7.DEC` (rule R88). -/
def execA7Dec (s : State) : Host.Outcome State Fault Refusal := .next (s.command opA7Dec)

/-- The end of `NN.WR` (rule R93): the bound, then the header octet at `CURSOR` and the text bits after it. -/
def nnEmit (b : Block) (spare : Nat) (text : List Bool) : Except FaultCode Block :=
  if b.overrun (8 + text.length) then .error .frameOverflow
  else
    .ok { b.advance (8 + text.length) with
      frame :=
        frameWriteBits b.epoch
          (memWrite b.epoch b.frame b.cursor.toNat 8 (nnHeader b.nnAlpha b.nnCi spare).toNat)
          (b.cursor.toNat + 8) text
      nnSpare := BitVec.ofNat 3 spare }

/-- `NN.WR`, Operation (rule R93). -/
def opNnWr : Operation := fun p b =>
  let sz := b.nnLen.toNat
  if b.nnAlpha ≠ alphaSelDefault ∧ b.nnAlpha ≠ p.alphaSelWide then .error .reservedAlphabet
  else if p.nnMaxChars < sz then .error .textOverflow
  else if b.nnAlpha = alphaSelDefault then
    match enc7All p (b.chars sz) with
    | none => .error .unmappableChar
    | some codes => nnEmit b (spareCount sz) (pack7 codes)
  else nnEmit b 0 (wideText (b.chars sz))

/-- `NN.WR` (rule R93). -/
def execNnWr (s : State) : Host.Outcome State Fault Refusal := .next (s.command opNnWr)

/-- The end of `NN.RD` (rule R94), once the number of characters is known: the capacity check, then the header's fields,
the characters and `CURSOR`. -/
def nnAccept (p : Params) (b : Block) (hdr : Octet) (octets : Nat) (chars : List CharUnit) : Except FaultCode Block :=
  if p.nnMaxChars < chars.length then .error .textOverflow
  else
    .ok { b.advance (8 * octets) with
      nnExt := hdr.extractLsb' 7 1
      nnAlpha := hdr.extractLsb' 4 3
      nnCi := hdr.extractLsb' 3 1
      nnSpare := hdr.extractLsb' 0 3
      nnLen := BitVec.ofNat 8 chars.length
      charbuf := charsWrite b.charbuf 0 chars }

/-- The characters of a default-alphabet text of `sz` codes at bit address `base` (rule R94). -/
def defaultChars (p : Params) (b : Block) (base sz : Nat) : List CharUnit :=
  (List.range sz).map (fun k => dec7 p (unpackCode b.epoch b.frame base k))

/-- The characters of a wide text of `sz` 16-bit fields at bit address `base` (rule R94). -/
def wideChars (b : Block) (base sz : Nat) : List CharUnit :=
  (List.range sz).map (fun k => BitVec.ofNat 16 (memRead b.epoch b.frame (base + 16 * k) 16))

/-- `NN.RD`, Operation (rule R94). The frame is read, not normalised in place. -/
def opNnRd : Operation := fun p b =>
  let octets := b.nnOctets.toNat
  if octets = 0 then .error .badLength
  else if b.overrun (8 * octets) then .error .truncated
  else
    let hdr : Octet := BitVec.ofNat 8 (b.readAt 0 8)
    let alpha := hdr.extractLsb' 4 3
    let base := b.cursor.toNat + 8
    let textBits := 8 * (octets - 1)
    if alpha ≠ alphaSelDefault ∧ alpha ≠ p.alphaSelWide then .error .reservedAlphabet
    else if alpha = alphaSelDefault then
      let spare := (hdr.extractLsb' 0 3).toNat
      if textBits < spare ∨ (textBits - spare) % 7 ≠ 0 then .error .badLength
      else nnAccept p b hdr octets (defaultChars p b base ((textBits - spare) / 7))
    else if textBits % 16 ≠ 0 then .error .badLength
    else nnAccept p b hdr octets (wideChars b base (textBits / 16))

/-- `NN.RD` (rule R94). -/
def execNnRd (s : State) : Host.Outcome State Fault Refusal := .next (s.command opNnRd)

end Sys2Proof.Machine
end

