-- ==== Sys2Proof/Machine/CompositeInteger.lean ====
section
/-!
DEFINITION. The 128-bit challenge: `RAND.WR`, `RAND.RD`, `RAND.EXP` (44_composite_integer.md).
-/

namespace Sys2Proof.Machine

/-- `RAND.WR`, Operation (rule R128): the high half first. -/
def opRandWr : Operation := fun _ b =>
  if b.overrun 128 then .error .frameOverflow
  else .ok (b.writeFields [(64, b.randHi.toNat), (64, b.randLo.toNat)])

/-- `RAND.WR` (rule R128). -/
def execRandWr (s : State) : Host.Outcome State Fault Refusal := .next (s.command opRandWr)

/-- `RAND.RD`, Operation (rule R129). -/
def opRandRd : Operation := fun _ b =>
  if b.overrun 128 then .error .truncated
  else
    .ok { b.advance 128 with
      randHi := BitVec.ofNat 64 (b.readAt 0 64)
      randLo := BitVec.ofNat 64 (b.readAt 64 64) }

/-- `RAND.RD` (rule R129). -/
def execRandRd (s : State) : Host.Outcome State Fault Refusal := .next (s.command opRandRd)

/-- `byte[i] = (value >> 8*i) & 0xFF` (rule R130). -/
def halfByte (half : BitVec 64) (i : Nat) : Octet := half.extractLsb' (8 * i) 8

/-- The 16-byte buffer `buf` of rule R130: the low half's bytes, then the high half's, each little-endian. -/
def exportBuffer (hi lo : BitVec 64) : List Octet :=
  (List.range 8).map (halfByte lo) ++ (List.range 8).map (halfByte hi)

/-- Sixteen export registers from a list, its element `k` in `RAND_EXP[k]`. -/
def exportRegisters (bytes : List Octet) : Vector Octet 16 :=
  ⟨((List.range 16).map (fun k => bytes.getD k 0#8)).toArray, by simp⟩

/-- `RAND.EXP`, Operation (rule R130): "reverse the entire 16-byte buffer". -/
def opRandExp : Operation := fun _ b =>
  .ok { b with randExp := exportRegisters (exportBuffer b.randHi b.randLo).reverse }

/-- `RAND.EXP` (rule R130). -/
def execRandExp (s : State) : Host.Outcome State Fault Refusal := .next (s.command opRandExp)

end Sys2Proof.Machine
end

