-- ==== Sys2Proof/Machine/FixedFields.lean ====
section
/-!
DEFINITION. The fixed-width elements: `SVC.RD`, `REJ.WR`, `SRES.RD` (43_fixed_fields.md).
-/

namespace Sys2Proof.Machine

/-- `SVC.RD`, Operation (rule R121): the raw code always, and whether it is in `SVC_KNOWN_SET`. -/
def opSvcRd : Operation := fun p b =>
  if b.overrun 4 then .error .truncated
  else
    let c := BitVec.ofNat 4 (b.readAt 0 4)
    .ok { b.advance 4 with svcCode := c, svcKnown := if c ∈ p.svcKnownSet then 1#1 else 0#1 }

/-- `SVC.RD` (rule R121). -/
def execSvcRd (s : State) : Host.Outcome State Fault Refusal := .next (s.command opSvcRd)

/-- `REJ.WR`, Operation (rule R122). -/
def opRejWr : Operation := fun _ b =>
  if 256 ≤ b.rejCause.toNat then .error .valueTooWide
  else if b.overrun 8 then .error .frameOverflow
  else .ok (b.writeFields [(8, b.rejCause.toNat)])

/-- `REJ.WR` (rule R122). -/
def execRejWr (s : State) : Host.Outcome State Fault Refusal := .next (s.command opRejWr)

/-- `SRES.RD`, Operation (rule R123). -/
def opSresRd : Operation := fun _ b =>
  if b.overrun 32 then .error .truncated
  else .ok { b.advance 32 with sres := BitVec.ofNat 32 (b.readAt 0 32) }

/-- `SRES.RD` (rule R123). -/
def execSresRd (s : State) : Host.Outcome State Fault Refusal := .next (s.command opSresRd)

end Sys2Proof.Machine
end

