-- ==== Sys2Proof/Syntax.lean ====
section
/-!
DEFINITION. The 21 commands of the opcode map (rule R63), one constructor per row of spec/opcode_table.json, and the
three ways a command word can be illegal (rule R65).
-/

namespace Sys2Proof

/-- A command. Only `RDF` and `WRF` (format W, rule R62) carry an argument: the 8-bit `ARG` field, the field width. -/
inductive Instr where
  | nop
  | rdf (w : BitVec 8)
  | wrf (w : BitVec 8)
  | seg
  | l8m
  | svcRd
  | rejWr
  | sresRd
  | randWr
  | randRd
  | randExp
  | nnWr
  | nnRd
  | a7Enc
  | a7Dec
  | tztWr
  | tztRd
  | bcdEnc
  | bcdDec
  | smEnc
  | smDec
  deriving DecidableEq, Repr

/-- Why a command word selects no row of rule R63: the three cases of rule R65. -/
inductive IllegalWord where
  /-- (a) the `OPC` value is not in the table. -/
  | unassignedOpcode
  /-- (b) a format N row with `ARG ≠ 0`. -/
  | argumentNotZero
  /-- (c) `RDF` or `WRF` with `ARG = 0` or `ARG > 64`. -/
  | widthOutOfRange
  deriving DecidableEq, Repr

end Sys2Proof
end

