-- ==== Sys2Proof/WellFormed.lean ====
section
/-!
DEFINITION. Which terms of `Instr` are commands: the width of a format W command satisfies `1 ≤ w ≤ 64` (rule R62).
A format N command has no argument to check.
-/

namespace Sys2Proof

/-- The term is a command of rule R63. -/
def Instr.wf : Instr → Bool
  | .rdf w => decide (1 ≤ w.toNat ∧ w.toNat ≤ 64)
  | .wrf w => decide (1 ≤ w.toNat ∧ w.toNat ≤ 64)
  | .nop => true
  | .seg => true
  | .l8m => true
  | .svcRd => true
  | .rejWr => true
  | .sresRd => true
  | .randWr => true
  | .randRd => true
  | .randExp => true
  | .nnWr => true
  | .nnRd => true
  | .a7Enc => true
  | .a7Dec => true
  | .tztWr => true
  | .tztRd => true
  | .bcdEnc => true
  | .bcdDec => true
  | .smEnc => true
  | .smDec => true

end Sys2Proof
end

