-- ==== Sys2Proof/Decode.lean ====
section
/-!
DEFINITION. The decoder of the 16-bit command word (rules R61 to R66), total, rejecting by name, and the encoder from the
same opcode map.
-/

namespace Sys2Proof

/-- `OPC`, bits 15:8 of the command word (rule R61). -/
def opcField (c : CommandWord) : BitVec 8 := c.extractLsb' 8 8

/-- `ARG`, bits 7:0 of the command word (rule R61). -/
def argField (c : CommandWord) : BitVec 8 := c.extractLsb' 0 8

/-- The width range of a format W command, `1 ≤ w ≤ 64` (rule R62). -/
def widthLegal (w : BitVec 8) : Bool := decide (1 ≤ w.toNat ∧ w.toNat ≤ 64)

/-- Format N: "`ARG` must be `0x00`" (rule R62). -/
def decodeN (i : Instr) (arg : BitVec 8) : Except IllegalWord Instr :=
  if arg = 0#8 then .ok i else .error .argumentNotZero

/-- Format W: "`ARG` is an unsigned field width `w`, used as it stands" (rule R62). -/
def decodeW (mk : BitVec 8 → Instr) (arg : BitVec 8) : Except IllegalWord Instr :=
  if widthLegal arg then .ok (mk arg) else .error .widthOutOfRange

/-- The opcode map of rule R63: "The decoder looks at `OPC` first and at `ARG` second; it looks at no state." -/
def decode (c : CommandWord) : Except IllegalWord Instr :=
  match (opcField c).toNat with
  | 0x00 => decodeN .nop (argField c)
  | 0x01 => decodeW .rdf (argField c)
  | 0x02 => decodeW .wrf (argField c)
  | 0x03 => decodeN .seg (argField c)
  | 0x04 => decodeN .l8m (argField c)
  | 0x10 => decodeN .svcRd (argField c)
  | 0x11 => decodeN .rejWr (argField c)
  | 0x12 => decodeN .sresRd (argField c)
  | 0x20 => decodeN .randWr (argField c)
  | 0x21 => decodeN .randRd (argField c)
  | 0x22 => decodeN .randExp (argField c)
  | 0x30 => decodeN .nnWr (argField c)
  | 0x31 => decodeN .nnRd (argField c)
  | 0x32 => decodeN .a7Enc (argField c)
  | 0x33 => decodeN .a7Dec (argField c)
  | 0x40 => decodeN .tztWr (argField c)
  | 0x41 => decodeN .tztRd (argField c)
  | 0x42 => decodeN .bcdEnc (argField c)
  | 0x43 => decodeN .bcdDec (argField c)
  | 0x44 => decodeN .smEnc (argField c)
  | 0x45 => decodeN .smDec (argField c)
  | _ => .error .unassignedOpcode

/-- The `OPC` of a command, from the opcode map of rule R63. -/
def opcOf : Instr → BitVec 8
  | .nop => 0x00#8
  | .rdf _ => 0x01#8
  | .wrf _ => 0x02#8
  | .seg => 0x03#8
  | .l8m => 0x04#8
  | .svcRd => 0x10#8
  | .rejWr => 0x11#8
  | .sresRd => 0x12#8
  | .randWr => 0x20#8
  | .randRd => 0x21#8
  | .randExp => 0x22#8
  | .nnWr => 0x30#8
  | .nnRd => 0x31#8
  | .a7Enc => 0x32#8
  | .a7Dec => 0x33#8
  | .tztWr => 0x40#8
  | .tztRd => 0x41#8
  | .bcdEnc => 0x42#8
  | .bcdDec => 0x43#8
  | .smEnc => 0x44#8
  | .smDec => 0x45#8

/-- The `ARG` of a command: its width for format W, `0x00` for format N (rule R62). -/
def argOf : Instr → BitVec 8
  | .rdf w => w
  | .wrf w => w
  | .nop => 0x00#8
  | .seg => 0x00#8
  | .l8m => 0x00#8
  | .svcRd => 0x00#8
  | .rejWr => 0x00#8
  | .sresRd => 0x00#8
  | .randWr => 0x00#8
  | .randRd => 0x00#8
  | .randExp => 0x00#8
  | .nnWr => 0x00#8
  | .nnRd => 0x00#8
  | .a7Enc => 0x00#8
  | .a7Dec => 0x00#8
  | .tztWr => 0x00#8
  | .tztRd => 0x00#8
  | .bcdEnc => 0x00#8
  | .bcdDec => 0x00#8
  | .smEnc => 0x00#8
  | .smDec => 0x00#8

/-- The command word of a command: `OPC ‖ ARG` (rule R61). -/
def encode (i : Instr) : CommandWord := opcOf i ++ argOf i

/-- The host's question: the command this decoder reads from an instruction of `nbits` bits whose bits are `w`. Every
command is one 16-bit word (rule R61), so a longer instruction with a bit set above bit 15 is none of them. -/
def decodeTableWord (nbits w : Nat) : Option Instr :=
  let v := w % 2 ^ nbits
  if v < 2 ^ 16 then
    match decode (BitVec.ofNat 16 v) with
    | .ok i => some i
    | .error _ => none
  else none

end Sys2Proof
end

