-- ==== Sys2Proof/Machine/FramePrimitives.lean ====
section
/-!
DEFINITION. The frame primitives: `NOP`, `RDF`, `WRF`, `SEG`, `L8M` (40_frame_primitives.md).
-/

namespace Sys2Proof.Machine

/-- `NOP`, Operation (rule R73): nothing. -/
def opNop : Operation := fun _ b => .ok b

/-- `NOP` (rule R73). -/
def execNop (s : State) : Host.Outcome State Fault Refusal := .next (s.command opNop)

/-- `RDF w`, Operation (rule R74). A width outside 1 to 64 is `IllegalCommand`, "decided before anything else". -/
def opRdf (w : BitVec 8) : Operation := fun _ b =>
  if !widthLegal w then .error .illegalCommand
  else if b.overrun w.toNat then .error .truncated
  else .ok { b.advance w.toNat with fval := BitVec.ofNat 64 (b.readAt 0 w.toNat) }

/-- `RDF w` (rule R74). -/
def execRdf (w : BitVec 8) (s : State) : Host.Outcome State Fault Refusal := .next (s.command (opRdf w))

/-- `WRF w`, Operation (rule R75): it asserts the width of `FVAL` and never masks. -/
def opWrf (w : BitVec 8) : Operation := fun _ b =>
  if !widthLegal w then .error .illegalCommand
  else if 2 ^ w.toNat ≤ b.fval.toNat then .error .valueTooWide
  else if b.overrun w.toNat then .error .frameOverflow
  else .ok (b.writeFields [(w.toNat, b.fval.toNat)])

/-- `WRF w` (rule R75). -/
def execWrf (w : BitVec 8) (s : State) : Host.Outcome State Fault Refusal := .next (s.command (opWrf w))

/-- `SEG`, Operation (rule R76). -/
def opSeg : Operation := fun _ b =>
  if b.overrun b.segLen.toNat then .error .badLength
  else .ok { b with segBase := b.cursor }

/-- `SEG` (rule R76). -/
def execSeg (s : State) : Host.Outcome State Fault Refusal := .next (s.command opSeg)

/-- `L8M`, Operation (rule R77): `Normalise` over the window `SEG_BASE, SEG_LEN`. -/
def opL8m : Operation := fun _ b =>
  if b.frameLen.toNat < b.segBase.toNat + b.segLen.toNat then .error .badLength
  else .ok { b with frame := normalise b.epoch b.frame b.segBase.toNat b.segLen.toNat }

/-- `L8M` (rule R77). -/
def execL8m (s : State) : Host.Outcome State Fault Refusal := .next (s.command opL8m)

end Sys2Proof.Machine
end

