-- ==== Sys2Proof/Machine/TimeCodec.lean ====
section
/-!
DEFINITION. The BCD time codec: `BCD.ENC`, `BCD.DEC`, `SM.ENC`, `SM.DEC`, `TZT.WR`, `TZT.RD` (42_bcd_time_codec.md).
-/

namespace Sys2Proof.Machine

/-- `BCD.ENC`, Operation (rule R103): the contract is checked on the value. -/
def opBcdEnc : Operation := fun _ b =>
  if 100 ≤ b.bcdVal.toNat then .error .fieldOutOfContract
  else .ok { b with bcdOctet := bcdOctetOf b.bcdVal.toNat }

/-- `BCD.ENC` (rule R103). -/
def execBcdEnc (s : State) : Host.Outcome State Fault Refusal := .next (s.command opBcdEnc)

/-- `BCD.DEC`, Operation (rule R104): a nibble above 9 "enters the sum as it stands". -/
def opBcdDec : Operation := fun _ b => .ok { b with bcdVal := BitVec.ofNat 8 (bcdValueOf b.bcdOctet) }

/-- `BCD.DEC` (rule R104). -/
def execBcdDec (s : State) : Host.Outcome State Fault Refusal := .next (s.command opBcdDec)

/-- `SM.ENC`, Operation (rule R108). -/
def opSmEnc : Operation := fun p b =>
  let q := quarterHours b.tzOffSec
  let m := q.natAbs
  if zoneMax < m then .error .valueTooWide
  else
    .ok { b with
      tzQ := BitVec.ofInt 8 q
      smOctet := zoneOctetOf p.tzLayout (m % 10) (zoneSign q) (m / 10) }

/-- `SM.ENC` (rule R108). -/
def execSmEnc (s : State) : Host.Outcome State Fault Refusal := .next (s.command opSmEnc)

/-- `SM.DEC`, Operation (rule R109): it never faults. -/
def opSmDec : Operation := fun p b =>
  let q := zoneOfOctet p.tzLayout b.smOctet
  .ok { b with tzQ := BitVec.ofInt 8 q, tzOffSec := BitVec.ofInt 32 (900 * q) }

/-- `SM.DEC` (rule R109). -/
def execSmDec (s : State) : Host.Outcome State Fault Refusal := .next (s.command opSmDec)

/-- The bank `TK` selects: `CALL_*` when `TK = 0`, `CALU_*` when `TK = 1` (rule R110). -/
def selectedBank (b : Block) : CalBank := if b.tk = 0#1 then b.call else b.calu

/-- The five fields of a bank that the contract bounds, in the order they are checked (rule R113). -/
def boundedFields (c : CalBank) : List Nat :=
  [c.mon.toNat, c.day.toNat, c.hour.toNat, c.min.toNat, c.sec.toNat]

/-- The 15 wire fields of the element (rules R111, R113): six digit-swapped pairs, then the zone subfields. -/
def tztFields (layout : TzLayout) (c : CalBank) (q : Int) : List (Nat × Nat) :=
  digitFields (c.year.toNat % 100) ++ digitFields c.mon.toNat ++ digitFields c.day.toNat ++
    digitFields c.hour.toNat ++ digitFields c.min.toNat ++ digitFields c.sec.toNat ++
    zoneFields layout (q.natAbs % 10) (zoneSign q) (q.natAbs / 10)

/-- `TZT.WR`, Operation (rule R113). -/
def opTztWr : Operation := fun p b =>
  let bank := selectedBank b
  let q := quarterHours b.tzOffSec
  if (boundedFields bank).any (fun v => decide (100 ≤ v)) then .error .fieldOutOfContract
  else if zoneMax < q.natAbs then .error .valueTooWide
  else if b.overrun 56 then .error .frameOverflow
  else .ok (b.writeFields (tztFields p.tzLayout bank q))

/-- `TZT.WR` (rule R113). -/
def execTztWr (s : State) : Host.Outcome State Fault Refusal := .next (s.command opTztWr)

/-- Two-digit field `i` of the element at `CURSOR`: `lo + 10*hi`, `lo` the first nibble (rules R101, R114). -/
def tztDigits (b : Block) (i : Nat) : Nat := b.readAt (8 * i) 4 + 10 * b.readAt (8 * i + 4) 4

/-- The signed quarter-hours of the element at `CURSOR`, its subfields read per `TZ_LAYOUT` (rule R114). -/
def tztZone (layout : TzLayout) (b : Block) : Int :=
  match layout with
  | .u4s1t3 => zoneValue (b.readAt 48 4) (b.readAt 52 1) (b.readAt 53 3)
  | .s1t3u4 => zoneValue (b.readAt 52 4) (b.readAt 48 1) (b.readAt 49 3)

/-- `TZT.RD`, Operation (rule R114): always the universal bank, and nothing added to the month. -/
def opTztRd : Operation := fun p b =>
  if b.overrun 56 then .error .truncated
  else
    let q := tztZone p.tzLayout b
    .ok { b.advance 56 with
      calu := {
        year := BitVec.ofNat 16 (p.centuryBase + tztDigits b 0)
        mon := BitVec.ofNat 8 (tztDigits b 1)
        day := BitVec.ofNat 8 (tztDigits b 2)
        hour := BitVec.ofNat 8 (tztDigits b 3)
        min := BitVec.ofNat 8 (tztDigits b 4)
        sec := BitVec.ofNat 8 (tztDigits b 5) }
      tzQ := BitVec.ofInt 8 q
      tzOffSec := BitVec.ofInt 32 (900 * q) }

/-- `TZT.RD` (rule R114). -/
def execTztRd (s : State) : Host.Outcome State Fault Refusal := .next (s.command opTztRd)

end Sys2Proof.Machine
end

