-- ==== Sys2Proof/Machine/Dispatch.lean ====
section
/-!
DEFINITION. One arm per command of the opcode map (rule R63), each the direct call of its meaning.
-/

namespace Sys2Proof.Machine

def exec (i : Instr) (s : State) : Host.Outcome State Fault Refusal :=
  match i with
  -- 40_frame_primitives.md
  | .nop => Sys2Proof.Machine.execNop s
  | .rdf w => Sys2Proof.Machine.execRdf w s
  | .wrf w => Sys2Proof.Machine.execWrf w s
  | .seg => Sys2Proof.Machine.execSeg s
  | .l8m => Sys2Proof.Machine.execL8m s
  -- 43_fixed_fields.md
  | .svcRd => Sys2Proof.Machine.execSvcRd s
  | .rejWr => Sys2Proof.Machine.execRejWr s
  | .sresRd => Sys2Proof.Machine.execSresRd s
  -- 44_composite_integer.md
  | .randWr => Sys2Proof.Machine.execRandWr s
  | .randRd => Sys2Proof.Machine.execRandRd s
  | .randExp => Sys2Proof.Machine.execRandExp s
  -- 41_alphabet_codec.md
  | .nnWr => Sys2Proof.Machine.execNnWr s
  | .nnRd => Sys2Proof.Machine.execNnRd s
  | .a7Enc => Sys2Proof.Machine.execA7Enc s
  | .a7Dec => Sys2Proof.Machine.execA7Dec s
  -- 42_bcd_time_codec.md
  | .tztWr => Sys2Proof.Machine.execTztWr s
  | .tztRd => Sys2Proof.Machine.execTztRd s
  | .bcdEnc => Sys2Proof.Machine.execBcdEnc s
  | .bcdDec => Sys2Proof.Machine.execBcdDec s
  | .smEnc => Sys2Proof.Machine.execSmEnc s
  | .smDec => Sys2Proof.Machine.execSmDec s

end Sys2Proof.Machine
end

