-- ==== Sys2Proof/Machine/Registers.lean ====
section
/-!
DEFINITION. The host's view of the block: the register map (rule R35) and what a host read and a host write of each
register do (rules R17 to R22, R34, R36).
-/

namespace Sys2Proof.Machine

/-- A field of a calendar bank (rule R31). -/
inductive CalField where
  | year | mon | day | hour | min | sec
  deriving DecidableEq, Repr

/-- The registers of the map of rule R35, each under its own name. -/
inductive Reg where
  | cmd | status | flts | cursor | frameLen | segBase | segLen
  | fval | svcCode | svcKnown | rejCause | sres | randHi | randLo
  | randExp (k : Fin 16)
  | nnAlpha | nnCi | nnSpare | nnExt | nnLen | nnOctets
  | aChar | aCode | tk
  | call (f : CalField)
  | calu (f : CalField)
  | tzOffSec | tzQ | smOctet | bcdVal | bcdOctet
  | charbuf (i : Nat)
  | frame (k : Nat)
  deriving DecidableEq, Repr

/-- The register index of `CMD` (rule R17). -/
def cmdIndex : Nat := 0x00

/-- The registers with an index of their own (rule R35). -/
def registerMap : List (Nat × Reg) :=
  [(0x00, .cmd), (0x01, .status), (0x02, .flts), (0x03, .cursor), (0x04, .frameLen), (0x05, .segBase), (0x06, .segLen),
   (0x08, .fval), (0x10, .svcCode), (0x11, .svcKnown), (0x12, .rejCause), (0x13, .sres), (0x18, .randHi),
   (0x19, .randLo), (0x30, .nnAlpha), (0x31, .nnCi), (0x32, .nnSpare), (0x33, .nnExt), (0x34, .nnLen),
   (0x35, .nnOctets), (0x38, .aChar), (0x39, .aCode), (0x40, .tk)] ++
  [(0x41, .call .year), (0x42, .call .mon), (0x43, .call .day), (0x44, .call .hour), (0x45, .call .min),
   (0x46, .call .sec), (0x49, .calu .year), (0x4A, .calu .mon), (0x4B, .calu .day), (0x4C, .calu .hour),
   (0x4D, .calu .min), (0x4E, .calu .sec), (0x50, .tzOffSec), (0x51, .tzQ), (0x52, .smOctet), (0x53, .bcdVal),
   (0x54, .bcdOctet)]

/-- The register at an index: one of the map's own, or an element of `RAND_EXP` (`0x20 + k`), `CHARBUF` (`0x100 + i`) or
`FRAME` (`0x1000 + k`). "Every index not in this table is unimplemented" (rule R35). -/
def Reg.ofIndex (p : Params) (index : Nat) : Option Reg :=
  match registerMap.lookup index with
  | some r => some r
  | none =>
    if h : 0x20 ≤ index ∧ index < 0x30 then some (.randExp ⟨index - 0x20, by omega⟩)
    else if 0x100 ≤ index ∧ index < 0x100 + p.nnMaxChars then some (.charbuf (index - 0x100))
    else if 0x1000 ≤ index ∧ index < 0x1000 + p.frameCap / 8 then some (.frame (index - 0x1000))
    else none

/-- The width of a calendar field (rule R31). -/
def CalField.width : CalField → Nat
  | .year => 16
  | .mon => 8
  | .day => 8
  | .hour => 8
  | .min => 8
  | .sec => 8

/-- The width of a register (rule R35). -/
def Reg.width : Reg → Nat
  | .cmd => 16
  | .status => 8
  | .flts => 16
  | .cursor => 16
  | .frameLen => 16
  | .segBase => 16
  | .segLen => 16
  | .fval => 64
  | .svcCode => 4
  | .svcKnown => 1
  | .rejCause => 32
  | .sres => 32
  | .randHi => 64
  | .randLo => 64
  | .randExp _ => 8
  | .nnAlpha => 3
  | .nnCi => 1
  | .nnSpare => 3
  | .nnExt => 1
  | .nnLen => 8
  | .nnOctets => 8
  | .aChar => 16
  | .aCode => 7
  | .tk => 1
  | .call f => f.width
  | .calu f => f.width
  | .tzOffSec => 32
  | .tzQ => 8
  | .smOctet => 8
  | .bcdVal => 8
  | .bcdOctet => 8
  | .charbuf _ => 16
  | .frame _ => 8

/-- The host may write the register: every one but `STATUS`, `FLTS`, `SEG_BASE` and `RAND_EXP[k]` (rule R36(b)). A write
to `CMD` executes a command (rule R17) and is no plain write. -/
def Reg.hostWritable : Reg → Bool
  | .cmd => false
  | .status => false
  | .flts => false
  | .segBase => false
  | .randExp _ => false
  | .cursor => true
  | .frameLen => true
  | .segLen => true
  | .fval => true
  | .svcCode => true
  | .svcKnown => true
  | .rejCause => true
  | .sres => true
  | .randHi => true
  | .randLo => true
  | .nnAlpha => true
  | .nnCi => true
  | .nnSpare => true
  | .nnExt => true
  | .nnLen => true
  | .nnOctets => true
  | .aChar => true
  | .aCode => true
  | .tk => true
  | .call _ => true
  | .calu _ => true
  | .tzOffSec => true
  | .tzQ => true
  | .smOctet => true
  | .bcdVal => true
  | .bcdOctet => true
  | .charbuf _ => true
  | .frame _ => true

/-- A field of a bank. -/
def CalBank.read (c : CalBank) : CalField → Nat
  | .year => c.year.toNat
  | .mon => c.mon.toNat
  | .day => c.day.toNat
  | .hour => c.hour.toNat
  | .min => c.min.toNat
  | .sec => c.sec.toNat

/-- A bank with one field replaced by the low bits of `v`. -/
def CalBank.write (c : CalBank) (f : CalField) (v : Nat) : CalBank :=
  match f with
  | .year => { c with year := BitVec.ofNat 16 v }
  | .mon => { c with mon := BitVec.ofNat 8 v }
  | .day => { c with day := BitVec.ofNat 8 v }
  | .hour => { c with hour := BitVec.ofNat 8 v }
  | .min => { c with min := BitVec.ofNat 8 v }
  | .sec => { c with sec := BitVec.ofNat 8 v }

/-- The value a host read returns (rules R17 to R19, R35). Reading has no side effect (rule R49). -/
def Block.hostRead (b : Block) : Reg → Nat
  | .cmd => 0
  | .status => (statusRead b.status).toNat
  | .flts => (fltsRead b.flts).toNat
  | .cursor => b.cursor.toNat
  | .frameLen => b.frameLen.toNat
  | .segBase => b.segBase.toNat
  | .segLen => b.segLen.toNat
  | .fval => b.fval.toNat
  | .svcCode => b.svcCode.toNat
  | .svcKnown => b.svcKnown.toNat
  | .rejCause => b.rejCause.toNat
  | .sres => b.sres.toNat
  | .randHi => b.randHi.toNat
  | .randLo => b.randLo.toNat
  | .randExp k => (b.randExp.toList.getD k.val 0#8).toNat
  | .nnAlpha => b.nnAlpha.toNat
  | .nnCi => b.nnCi.toNat
  | .nnSpare => b.nnSpare.toNat
  | .nnExt => b.nnExt.toNat
  | .nnLen => b.nnLen.toNat
  | .nnOctets => b.nnOctets.toNat
  | .aChar => b.aChar.toNat
  | .aCode => b.aCode.toNat
  | .tk => b.tk.toNat
  | .call f => b.call.read f
  | .calu f => b.calu.read f
  | .tzOffSec => b.tzOffSec.toNat
  | .tzQ => b.tzQ.toNat
  | .smOctet => b.smOctet.toNat
  | .bcdVal => b.bcdVal.toNat
  | .bcdOctet => b.bcdOctet.toNat
  | .charbuf i => (b.char i).toNat
  | .frame k => (b.octet k).toNat

/-- The block after a host write of the number `v` to a register: "stores the low `w` bits of the value written, except
`FRAME_LEN`" (rule R36(a)), which stores `min(v, FRAME_CAP)` (rule R21); a write to a read-only register is ignored
(rule R36(b)); `CMD` holds no state (rule R17). -/
def Block.hostWrite (p : Params) (b : Block) (r : Reg) (v : Nat) : Block :=
  match r with
  | .cmd => b
  | .status => b
  | .flts => b
  | .segBase => b
  | .randExp _ => b
  | .cursor => { b with cursor := BitVec.ofNat 16 v }
  | .frameLen => { b with frameLen := BitVec.ofNat 16 (min v p.frameCap) }
  | .segLen => { b with segLen := BitVec.ofNat 16 v }
  | .fval => { b with fval := BitVec.ofNat 64 v }
  | .svcCode => { b with svcCode := BitVec.ofNat 4 v }
  | .svcKnown => { b with svcKnown := BitVec.ofNat 1 v }
  | .rejCause => { b with rejCause := BitVec.ofNat 32 v }
  | .sres => { b with sres := BitVec.ofNat 32 v }
  | .randHi => { b with randHi := BitVec.ofNat 64 v }
  | .randLo => { b with randLo := BitVec.ofNat 64 v }
  | .nnAlpha => { b with nnAlpha := BitVec.ofNat 3 v }
  | .nnCi => { b with nnCi := BitVec.ofNat 1 v }
  | .nnSpare => { b with nnSpare := BitVec.ofNat 3 v }
  | .nnExt => { b with nnExt := BitVec.ofNat 1 v }
  | .nnLen => { b with nnLen := BitVec.ofNat 8 v }
  | .nnOctets => { b with nnOctets := BitVec.ofNat 8 v }
  | .aChar => { b with aChar := BitVec.ofNat 16 v }
  | .aCode => { b with aCode := BitVec.ofNat 7 v }
  | .tk => { b with tk := BitVec.ofNat 1 v }
  | .call f => { b with call := b.call.write f v }
  | .calu f => { b with calu := b.calu.write f v }
  | .tzOffSec => { b with tzOffSec := BitVec.ofNat 32 v }
  | .tzQ => { b with tzQ := BitVec.ofNat 8 v }
  | .smOctet => { b with smOctet := BitVec.ofNat 8 v }
  | .bcdVal => { b with bcdVal := BitVec.ofNat 8 v }
  | .bcdOctet => { b with bcdOctet := BitVec.ofNat 8 v }
  | .charbuf i => { b with charbuf := Memory.write b.charbuf i (BitVec.ofNat 16 v) }
  | .frame k => { b with frame := Memory.write b.frame k (BitVec.ofNat 8 v) }

/-- A host read of an index: an unimplemented one returns 0 (rule R36(c)). -/
def State.readIndex (s : State) (index : Nat) : State :=
  match Reg.ofIndex s.params index with
  | some r => { s with lastRead := some (s.block.hostRead r) }
  | none => { s with lastRead := some 0 }

/-- A host write to an index other than `CMD`'s: an unimplemented one has no effect on state (rule R36(c)). -/
def State.writeIndex (s : State) (index value : Nat) : State :=
  match Reg.ofIndex s.params index with
  | some r => { s with block := s.block.hostWrite s.params r value }
  | none => s

/-- The reset applied from outside (rules R39, R156): the block as after reset, with unspecified values of its own ("two
resets need not give the same one"); the parameters and the host are not the block's to reset. -/
def State.applyReset (s : State) : State := { s with block := Block.afterReset (s.block.epoch + 1) }

end Sys2Proof.Machine
end

