-- ==== Sys2Proof/Machine/Issue.lean ====
section
/-!
DEFINITION. The write of a command word to `CMD` (rule R17), the fault entry of an illegal one (rules R65, R140), and one
action of the outside world.
-/

namespace Sys2Proof.Machine

/-- "An illegal command word ends at once with fault `IllegalCommand` (code 1) and changes nothing but `STATUS` and
`FLTS`" (rule R65); it is decided from the word alone, before any state is read (rule R140). -/
def State.illegalCommand (s : State) : State := s.raise .illegalCommand

/-- The engine executes the command word `c` "at once and to its end" (rule R17). -/
def issue (c : CommandWord) (s : State) : Host.Outcome State Fault Refusal :=
  match decode c with
  | .ok i => exec i s
  | .error _ => .next s.illegalCommand

/-- One action of the outside world (rules R17, R36, R156). A write to `CMD` takes the low 16 bits of the value, as rule
R36(a) says of a register of width 16. -/
def perform (e : Event) (s : State) : Host.Outcome State Fault Refusal :=
  match e with
  | .write index value =>
    if index = cmdIndex then issue (BitVec.ofNat 16 value) s else .next (s.writeIndex index value)
  | .read index => .next (s.readIndex index)
  | .reset => .next s.applyReset

/-- Take the next action off what the outside world has planned, and perform it. With none planned the block is idle:
"the engine never acts on its own" (rule R13). -/
def advanceHost (s : State) : Host.Outcome State Fault Refusal :=
  match s.pending with
  | [] => .next s
  | e :: rest => perform e { s with pending := rest }

/-- The machine whose next action is the write of the low `nbits` bits of `w` to `CMD`; what was planned comes after. -/
def State.planCommand (s : State) (nbits w : Nat) : State :=
  { s with pending := .write cmdIndex (w % 2 ^ nbits) :: s.pending }

end Sys2Proof.Machine
end

