-- ==== Sys2Proof/Machine/Step.lean ====
section
/-!
DEFINITION. One step of the machine: one action of the outside world (92_eei_decisions.md D1, "a step of the model is one
host access"). The block has no program counter and no fetch (rule R16): a command comes to run by the host writing it
to `CMD` (notes/assumptions/4.md).
-/

namespace Sys2Proof.Machine

def step (s : State) : Host.Outcome State Fault Refusal := advanceHost s

/-- `s` with the instruction whose bits are `w` written to `CMD` by the very next step. -/
def State.withFetchWord (s : State) (nbits w : Nat) : State := s.planCommand nbits w

end Sys2Proof.Machine
end

