-- ==== Sys2Proof/Safety.lean ====
section
/-!
DEFINITION. What counts as a legal state and a step that goes on, and the spec's own words about frame bits, in the terms
the statements use.
-/

namespace Sys2Proof.Machine

/-- The result codes of rule R138: 0, or the number of a fault. -/
abbrev legalCode (status : BitVec 8) : Prop := status.toNat ≤ 9

/-- A legal block of an instance with parameters `p`:
`STATUS` holds a code of rule R138; bit 0 and bits 15:10 of `FLTS` are 0 (rule R19); a code that is not 0 has its bit set
in `FLTS` (rules R138, R19); `FRAME_LEN` is at most `FRAME_CAP` (rule R21); the two buffers are in canonical form and
list only elements that exist (rules R30, R34). -/
abbrev Block.wf (p : Params) (b : Block) : Prop :=
  legalCode b.status ∧ b.flts &&& 0xFC01#16 = 0#16 ∧
    (b.status ≠ 0#8 → b.flts.getLsbD b.status.toNat = true) ∧
    b.frameLen.toNat ≤ p.frameCap ∧
    Memory.wf b.frame ∧ (∀ c ∈ b.frame, c.1 < p.frameCap / 8) ∧
    Memory.wf b.charbuf ∧ (∀ c ∈ b.charbuf, c.1 < p.nnMaxChars)

/-- A legal state: legal parameters and a legal block. The outside world's side is free. -/
abbrev State.wf (s : State) : Prop := s.params.wf ∧ s.block.wf s.params

/-- A step that goes on: it neither stops with a fault nor refuses. -/
def goesOn (o : Host.Outcome State Fault Refusal) : Prop := ∃ t, o = .next t

/-- The number in the `n` frame bits at `pos`, by the formula of rule R11: `Σ_{j=0..n-1} F[pos+j] · 2^(n-1-j)`. -/
def fieldValue (b : Block) (pos n : Nat) : Nat :=
  ∑ j ∈ Finset.range n, (b.bit (pos + j)).toNat * 2 ^ (n - 1 - j)

/-- The `n` frame bits at `pos` hold `v`, most significant bit first (rules R11, R42): `F[pos+j] = v[n-1-j]`. -/
def holdsField (b : Block) (pos n v : Nat) : Prop := ∀ j < n, b.bit (pos + j) = v.testBit (n - 1 - j)

/-- Every frame bit of `b'` outside the `n` bits at `pos` is as in `b`. -/
def frameKeptOutside (b b' : Block) (pos n : Nat) : Prop := ∀ a, (a < pos ∨ pos + n ≤ a) → b'.bit a = b.bit a

/-- Bit `i` of the text stream that starts at bit address `base`: `S[8m + t] = F[base + 8m + 7 - t]` (rule R94). -/
def streamBit (b : Block) (base i : Nat) : Bool := b.bit (base + 8 * (i / 8) + 7 - i % 8)

/-- `ALPHA7(code) = ch` (rule R86). -/
def alphabetMaps (p : Params) (code : Code7) (ch : CharUnit) : Prop := p.alpha7.toList[code.toNat]? = some ch

/-- The commands that write frame bits (rule R41). -/
def writesFrame (i : Instr) : Prop :=
  (∃ w, i = .wrf w) ∨ i = .rejWr ∨ i = .randWr ∨ i = .nnWr ∨ i = .tztWr ∨ i = .l8m

/-- `rev_w(v)`: bit `j` of the result is bit `w-1-j` of `v` (rule R9). -/
def revBits (w v : Nat) : Nat := ∑ j ∈ Finset.range w, (v.testBit (w - 1 - j)).toNat * 2 ^ j

/-- The octet of a zone with units digit `u`, sign `s` and tens digit `t`, as a number (the table of rule R107). -/
def zoneNumber (layout : TzLayout) (u s t : Nat) : Nat :=
  match layout with
  | .u4s1t3 => 16 * u + 8 * s + t
  | .s1t3u4 => 128 * s + 16 * t + u

/-- The frame bits a command moves at `CURSOR` when it succeeds, `none` for a command that moves none there (the table
of rule R48). -/
def bitsMoved (i : Instr) (s : State) : Option Nat :=
  match i with
  | .rdf w => some w.toNat
  | .wrf w => some w.toNat
  | .svcRd => some 4
  | .rejWr => some 8
  | .sresRd => some 32
  | .randWr => some 128
  | .randRd => some 128
  | .nnWr =>
    if s.block.nnAlpha = alphaSelDefault then some (8 + 7 * s.block.nnLen.toNat + s.block.nnLen.toNat % 8)
    else some (8 + 16 * s.block.nnLen.toNat)
  | .nnRd => some (8 * s.block.nnOctets.toNat)
  | .tztWr => some 56
  | .tztRd => some 56
  | .nop => none
  | .seg => none
  | .l8m => none
  | .randExp => none
  | .a7Enc => none
  | .a7Dec => none
  | .bcdEnc => none
  | .bcdDec => none
  | .smEnc => none
  | .smDec => none

end Sys2Proof.Machine
end

