-- ==== Sys2Proof/Certificates/Slice0/Obligations.lean ====
section
/-!
DEFINITION. The statements for the provers, in five parts: the command word, the step and the host, the machine as a
whole, the twenty-one commands one by one, and what two or more operations do together. A statement about a command says
on every path what `exec` answers: a fault's entry is `State.raise`, whose effect `EachFaultWritesItsOwnCode` spells
out; a success names every field that may differ, and every other field is then as it was.
-/

open Sys2Proof Sys2Proof.Machine

/-! ## The command word -/

/-- Rules R61 to R63: no bit of a command is dropped by its encoding. -/
def Obligations.DecodeUndoesEncode : Prop :=
  ∀ i : Instr, i.wf = true → decode (encode i) = .ok i

/-- Rule R66: decoding is total and unambiguous, and the counts of legal and illegal words. -/
def Obligations.EveryWordIsOneCommandOrIllegal : Prop :=
  (∀ c : CommandWord,
    (∃ i, decode c = .ok i ∧ i.wf = true ∧ encode i = c ∧ ∀ j : Instr, j.wf = true → encode j = c → j = i) ∨
      ((∃ r, decode c = .error r) ∧ ∀ j : Instr, j.wf = true → encode j ≠ c)) ∧
    {c : CommandWord | ∃ w, decode c = .ok (.rdf w)}.ncard = 64 ∧
    {c : CommandWord | ∃ w, decode c = .ok (.wrf w)}.ncard = 64 ∧
    {c : CommandWord | ∃ i, decode c = .ok i}.ncard = 147 ∧
    {c : CommandWord | ∃ r, decode c = .error r}.ncard = 65389

/-- Rule R140 with the three cases of rule R65 written out: such a word, whatever the state, sets `STATUS` to 1 and bit 1
of `FLTS`, and nothing else changes. -/
def Obligations.IllegalWordIsDecidedFromTheWordAlone : Prop :=
  ∀ (opc arg : Nat) (s : State), opc < 256 → arg < 256 →
    ((5 ≤ opc ∧ opc ≤ 0x0F) ∨ (0x13 ≤ opc ∧ opc ≤ 0x1F) ∨ (0x23 ≤ opc ∧ opc ≤ 0x2F) ∨ (0x34 ≤ opc ∧ opc ≤ 0x3F) ∨
        0x46 ≤ opc ∨
      (opc ≠ 1 ∧ opc ≠ 2 ∧ arg ≠ 0) ∨ ((opc = 1 ∨ opc = 2) ∧ (arg = 0 ∨ 64 < arg))) →
    issue (BitVec.ofNat 16 (256 * opc + arg)) s =
      .next { s with block := { s.block with status := 1#8, flts := s.block.flts ||| 2#16 } }

/-- The example words of 30_encoding.md section 2 and one word of each family of the opcode map. -/
def Obligations.ListedWordsDecode : Prop :=
  decode 0x0000#16 = .ok .nop ∧ decode 0x0104#16 = .ok (.rdf 4#8) ∧ decode 0x0240#16 = .ok (.wrf 64#8) ∧
    decode 0x0400#16 = .ok .l8m ∧ decode 0x1100#16 = .ok .rejWr ∧ decode 0x2200#16 = .ok .randExp ∧
    decode 0x3000#16 = .ok .nnWr ∧ decode 0x3300#16 = .ok .a7Dec ∧ decode 0x4100#16 = .ok .tztRd ∧
    decode 0x4500#16 = .ok .smDec

/-! ## The step and the host -/

/-- Rule R17: when the next action of the host writes `v` to `CMD`, the step is the issue of the word in the low 16 bits of
`v`, at the state whose planned actions are the rest: `exec` of the command the word decodes to, or the entry of
`IllegalCommand` (rule R65). Nothing else happens around it: there is no program counter (rule R16). Two things here are the
model's own: that the host's actions are a list in State (notes/assumptions/4.md, DESIGN CHOICE), and that a value of 65536
or more is cut to its low 16 bits (notes/assumptions/8.md, DEDUCED from rules R17 and R36(a)). -/
def Obligations.StepRunsTheDecodedCommand : Prop :=
  ∀ (s : State) (v : Nat) (rest : List Event), s.pending = .write 0 v :: rest →
    step s = issue (BitVec.ofNat 16 v) { s with pending := rest } ∧
      (∀ i, decode (BitVec.ofNat 16 v) = .ok i → step s = exec i { s with pending := rest }) ∧
      ∀ r, decode (BitVec.ofNat 16 v) = .error r →
        step s = .next { s with
          pending := rest, block := { s.block with status := 1#8, flts := s.block.flts ||| 2#16 } }

/-- Rule R13: the engine never acts on its own. That a step with nothing planned leaves the state as it is, is the
model's choice (notes/assumptions/6.md). -/
def Obligations.IdleStepChangesNothing : Prop :=
  ∀ s : State, s.pending = [] → step s = .next s

/-- 10_state.md section 7: a host read of each index of the map returns the value of the field of that row, 0 for `CMD` and
for an unimplemented index, and changes nothing of the block. The values are written out row by row, with the masks of
rules R18 and R19; `CHARBUF` and `FRAME` have a row for each of their elements. (Where the value read stands is the model's
choice, notes/assumptions/5.md.) -/
def Obligations.HostReadReturnsTheRegister : Prop :=
  ∀ (s : State) (b : Block) (index : Nat) (rest : List Event), s.pending = .read index :: rest → b = s.block →
    ∃ v, step s = .next { s with pending := rest, lastRead := some v } ∧
      (∀ row ∈ [(0x00, 0), (0x01, b.status.toNat % 32), (0x02, (b.flts &&& 0x03FE#16).toNat), (0x03, b.cursor.toNat),
          (0x04, b.frameLen.toNat), (0x05, b.segBase.toNat), (0x06, b.segLen.toNat), (0x08, b.fval.toNat),
          (0x10, b.svcCode.toNat), (0x11, b.svcKnown.toNat), (0x12, b.rejCause.toNat), (0x13, b.sres.toNat),
          (0x18, b.randHi.toNat), (0x19, b.randLo.toNat), (0x30, b.nnAlpha.toNat), (0x31, b.nnCi.toNat),
          (0x32, b.nnSpare.toNat), (0x33, b.nnExt.toNat), (0x34, b.nnLen.toNat), (0x35, b.nnOctets.toNat),
          (0x38, b.aChar.toNat), (0x39, b.aCode.toNat), (0x40, b.tk.toNat)],
        index = row.1 → v = row.2) ∧
      (∀ row ∈ [(0x41, b.call.year.toNat), (0x42, b.call.mon.toNat), (0x43, b.call.day.toNat),
          (0x44, b.call.hour.toNat), (0x45, b.call.min.toNat), (0x46, b.call.sec.toNat), (0x49, b.calu.year.toNat),
          (0x4A, b.calu.mon.toNat), (0x4B, b.calu.day.toNat), (0x4C, b.calu.hour.toNat), (0x4D, b.calu.min.toNat),
          (0x4E, b.calu.sec.toNat), (0x50, b.tzOffSec.toNat), (0x51, b.tzQ.toNat), (0x52, b.smOctet.toNat),
          (0x53, b.bcdVal.toNat), (0x54, b.bcdOctet.toNat)],
        index = row.1 → v = row.2) ∧
      (∀ k : Fin 16, index = 0x20 + k.val → v = b.randExp[k].toNat) ∧
      (∀ i < s.params.nnMaxChars, index = 0x100 + i → v = (b.char i).toNat) ∧
      (s.params.wf → ∀ k < s.params.frameCap / 8, index = 0x1000 + k → v = fieldValue b (8 * k) 8) ∧
      (Reg.ofIndex s.params index = none → v = 0) ∧
      ∀ r, Reg.ofIndex s.params index = some r → v = b.hostRead r ∧ v < 2 ^ r.width

/-- 10_state.md section 7 with rule R21: what a host write to each index other than `CMD`'s does to the block, row by row and
as the whole block after it, so that the field the commands read is the one that changes and no other does; the indices
whose writes are ignored, `STATUS`, `FLTS`, `SEG_BASE` and `RAND_EXP[k]` and no other (`CMD`, where a write is a command,
is left out of the writable ones too); and the same seen through host reads. `BitVec.ofNat w v` is the low `w` bits of `v`. -/
def Obligations.HostWriteStoresTheLowBits : Prop :=
  (∀ r : Reg, r.hostWritable = false ↔ r = .cmd ∨ r = .status ∨ r = .flts ∨ r = .segBase ∨ ∃ k, r = .randExp k) ∧
  ∀ (s : State) (b : Block) (index v : Nat) (rest : List Event), s.params.wf → index ≠ 0 →
    s.pending = .write index v :: rest → b = s.block →
    ∃ b', step s = .next { s with pending := rest, block := b' } ∧
      (index = 0x01 ∨ index = 0x02 ∨ index = 0x05 ∨ (0x20 ≤ index ∧ index < 0x30) → b' = b) ∧
      (∀ row ∈ [(0x03, { b with cursor := BitVec.ofNat 16 v }),
          (0x04, { b with frameLen := BitVec.ofNat 16 (min v s.params.frameCap) }),
          (0x06, { b with segLen := BitVec.ofNat 16 v }), (0x08, { b with fval := BitVec.ofNat 64 v }),
          (0x10, { b with svcCode := BitVec.ofNat 4 v }), (0x11, { b with svcKnown := BitVec.ofNat 1 v }),
          (0x12, { b with rejCause := BitVec.ofNat 32 v }), (0x13, { b with sres := BitVec.ofNat 32 v }),
          (0x18, { b with randHi := BitVec.ofNat 64 v }), (0x19, { b with randLo := BitVec.ofNat 64 v }),
          (0x30, { b with nnAlpha := BitVec.ofNat 3 v }), (0x31, { b with nnCi := BitVec.ofNat 1 v }),
          (0x32, { b with nnSpare := BitVec.ofNat 3 v }), (0x33, { b with nnExt := BitVec.ofNat 1 v }),
          (0x34, { b with nnLen := BitVec.ofNat 8 v }), (0x35, { b with nnOctets := BitVec.ofNat 8 v }),
          (0x38, { b with aChar := BitVec.ofNat 16 v }), (0x39, { b with aCode := BitVec.ofNat 7 v }),
          (0x40, { b with tk := BitVec.ofNat 1 v })],
        index = row.1 → b' = row.2) ∧
      (∀ row ∈ [(0x41, { b with call := { b.call with year := BitVec.ofNat 16 v } }),
          (0x42, { b with call := { b.call with mon := BitVec.ofNat 8 v } }),
          (0x43, { b with call := { b.call with day := BitVec.ofNat 8 v } }),
          (0x44, { b with call := { b.call with hour := BitVec.ofNat 8 v } }),
          (0x45, { b with call := { b.call with min := BitVec.ofNat 8 v } }),
          (0x46, { b with call := { b.call with sec := BitVec.ofNat 8 v } }),
          (0x49, { b with calu := { b.calu with year := BitVec.ofNat 16 v } }),
          (0x4A, { b with calu := { b.calu with mon := BitVec.ofNat 8 v } }),
          (0x4B, { b with calu := { b.calu with day := BitVec.ofNat 8 v } }),
          (0x4C, { b with calu := { b.calu with hour := BitVec.ofNat 8 v } }),
          (0x4D, { b with calu := { b.calu with min := BitVec.ofNat 8 v } }),
          (0x4E, { b with calu := { b.calu with sec := BitVec.ofNat 8 v } }),
          (0x50, { b with tzOffSec := BitVec.ofNat 32 v }), (0x51, { b with tzQ := BitVec.ofNat 8 v }),
          (0x52, { b with smOctet := BitVec.ofNat 8 v }), (0x53, { b with bcdVal := BitVec.ofNat 8 v }),
          (0x54, { b with bcdOctet := BitVec.ofNat 8 v })],
        index = row.1 → b' = row.2) ∧
      (∀ i < s.params.nnMaxChars, index = 0x100 + i →
        b' = { b with charbuf := b'.charbuf } ∧ b'.char i = BitVec.ofNat 16 v ∧ ∀ j, j ≠ i → b'.char j = b.char j) ∧
      (∀ k < s.params.frameCap / 8, index = 0x1000 + k →
        b' = { b with frame := b'.frame } ∧ fieldValue b' (8 * k) 8 = v % 256 ∧ frameKeptOutside b b' (8 * k) 8) ∧
      (Reg.ofIndex s.params index = none → b' = b) ∧
      ∀ r, Reg.ofIndex s.params index = some r →
        (r.hostWritable = false → b' = b) ∧
        (r.hostWritable = true → r ≠ .frameLen → b'.hostRead r = v % 2 ^ r.width) ∧
        (r = .frameLen → b'.hostRead r = min v s.params.frameCap) ∧
        ∀ r', r' ≠ r → b'.hostRead r' = b.hostRead r'

/-- The register map of rule R35: the index, the name and the width of every row, the three indexed files among them; no
register has two indices; and "every index not in this table is unimplemented". -/
def Obligations.EveryRegisterHasOneIndex : Prop :=
  ∀ p : Params, p.wf →
    (∀ i j r, Reg.ofIndex p i = some r → Reg.ofIndex p j = some r → i = j) ∧
      (∀ row ∈ [(0x00, Reg.cmd, 16), (0x01, .status, 8), (0x02, .flts, 16), (0x03, .cursor, 16), (0x04, .frameLen, 16),
          (0x05, .segBase, 16), (0x06, .segLen, 16), (0x08, .fval, 64), (0x10, .svcCode, 4), (0x11, .svcKnown, 1),
          (0x12, .rejCause, 32), (0x13, .sres, 32), (0x18, .randHi, 64), (0x19, .randLo, 64), (0x30, .nnAlpha, 3),
          (0x31, .nnCi, 1), (0x32, .nnSpare, 3), (0x33, .nnExt, 1), (0x34, .nnLen, 8), (0x35, .nnOctets, 8),
          (0x38, .aChar, 16), (0x39, .aCode, 7), (0x40, .tk, 1)],
        Reg.ofIndex p row.1 = some row.2.1 ∧ row.2.1.width = row.2.2) ∧
      (∀ row ∈ [(0x41, Reg.call .year, 16), (0x42, .call .mon, 8), (0x43, .call .day, 8), (0x44, .call .hour, 8),
          (0x45, .call .min, 8), (0x46, .call .sec, 8), (0x49, .calu .year, 16), (0x4A, .calu .mon, 8),
          (0x4B, .calu .day, 8), (0x4C, .calu .hour, 8), (0x4D, .calu .min, 8), (0x4E, .calu .sec, 8),
          (0x50, .tzOffSec, 32), (0x51, .tzQ, 8), (0x52, .smOctet, 8), (0x53, .bcdVal, 8), (0x54, .bcdOctet, 8)],
        Reg.ofIndex p row.1 = some row.2.1 ∧ row.2.1.width = row.2.2) ∧
      (∀ k : Fin 16, Reg.ofIndex p (0x20 + k.val) = some (.randExp k) ∧ (Reg.randExp k).width = 8) ∧
      (∀ i < p.nnMaxChars, Reg.ofIndex p (0x100 + i) = some (.charbuf i) ∧ (Reg.charbuf i).width = 16) ∧
      (∀ k < p.frameCap / 8, Reg.ofIndex p (0x1000 + k) = some (.frame k) ∧ (Reg.frame k).width = 8) ∧
      ∀ index, index = 0x07 ∨ (0x09 ≤ index ∧ index ≤ 0x0F) ∨ (0x14 ≤ index ∧ index ≤ 0x17) ∨
          (0x1A ≤ index ∧ index ≤ 0x1F) ∨ (0x36 ≤ index ∧ index ≤ 0x37) ∨ (0x3A ≤ index ∧ index ≤ 0x3F) ∨
          (0x47 ≤ index ∧ index ≤ 0x48) ∨ index = 0x4F ∨ (0x55 ≤ index ∧ index ≤ 0xFF) ∨
          (0x100 + p.nnMaxChars ≤ index ∧ index ≤ 0xFFF) ∨ 0x1000 + p.frameCap / 8 ≤ index →
        Reg.ofIndex p index = none

/-- 10_state.md section 9: the seven registers a reset makes 0, at the start and at a later reset from outside, whatever
the parameters. (That the outside world may apply a reset between two host accesses is the model's choice,
notes/assumptions/7.md.) -/
def Obligations.ResetClearsTheControlRegisters : Prop :=
  (∀ p : Params, ∃ e, (State.resetWith p).block = Block.afterReset e) ∧
    (∀ (s : State) (rest : List Event), s.pending = .reset :: rest →
      ∃ e, step s = .next { s with pending := rest, block := Block.afterReset e }) ∧
    ∀ e, (Block.afterReset e).status = 0#8 ∧ (Block.afterReset e).flts = 0#16 ∧ (Block.afterReset e).cursor = 0#16 ∧
      (Block.afterReset e).frameLen = 0#16 ∧ (Block.afterReset e).segBase = 0#16 ∧
      (Block.afterReset e).segLen = 0#16 ∧ (Block.afterReset e).tk = 0#1

/-! ## The machine as a whole -/

/-- Rules R38 and R169: every step goes on; a command changes nothing but the block, and what it does to the block depends
on the command, the parameters and the block alone. -/
def Obligations.CommandDependsOnParametersAndBlockAlone : Prop :=
  (∀ s : State, goesOn (step s)) ∧
    ∀ (i : Instr) (s s' : State), s.params = s'.params → s.block = s'.block →
      ∃ b, exec i s = .next { s with block := b } ∧ exec i s' = .next { s' with block := b }

/-- Rule R139, for every command and every state: the command ends with code 0 and `FLTS` unchanged, or with exactly one
fault code `n` of 1 to 9, and then `STATUS` is `n`, bit `n` of `FLTS` is set and nothing else changes. -/
def Obligations.CommandEndsOkOrEntersOneFault : Prop :=
  ∀ (i : Instr) (s : State), ∃ b, exec i s = .next { s with block := b } ∧
    ((b.status = 0#8 ∧ b.flts = s.block.flts) ∨
      ∃ n, 1 ≤ n ∧ n ≤ 9 ∧
        b = { s.block with status := BitVec.ofNat 8 n, flts := s.block.flts ||| (1#16 <<< n) })

/-- Rules R138 and R139, code by code: what the entry of each named fault writes, whatever the state; and every command word
ends with code 0 and `FLTS` as it was, or with the entry of one of the nine, so that "no other code is ever produced". -/
def Obligations.EachFaultWritesItsOwnCode : Prop :=
  (∀ (s : State) (b : Block), b = s.block →
    s.raise .illegalCommand = { s with block := { b with status := 1#8, flts := b.flts ||| 0x0002#16 } } ∧
    s.raise .truncated = { s with block := { b with status := 2#8, flts := b.flts ||| 0x0004#16 } } ∧
    s.raise .frameOverflow = { s with block := { b with status := 3#8, flts := b.flts ||| 0x0008#16 } } ∧
    s.raise .valueTooWide = { s with block := { b with status := 4#8, flts := b.flts ||| 0x0010#16 } } ∧
    s.raise .fieldOutOfContract = { s with block := { b with status := 5#8, flts := b.flts ||| 0x0020#16 } } ∧
    s.raise .textOverflow = { s with block := { b with status := 6#8, flts := b.flts ||| 0x0040#16 } } ∧
    s.raise .unmappableChar = { s with block := { b with status := 7#8, flts := b.flts ||| 0x0080#16 } } ∧
    s.raise .reservedAlphabet = { s with block := { b with status := 8#8, flts := b.flts ||| 0x0100#16 } } ∧
    s.raise .badLength = { s with block := { b with status := 9#8, flts := b.flts ||| 0x0200#16 } }) ∧
  ∀ (c : CommandWord) (s : State),
    (∃ t, issue c s = .next t ∧ t.block.status = 0#8 ∧ t.block.flts = s.block.flts) ∨
      ∃ f, issue c s = .next (s.raise f)

/-- Every step, the illegal words, the host's writes and the reset from outside among them, keeps a legal state legal:
the code in `STATUS` is one of rule R138 and has its bit in `FLTS`, the reserved bits of `FLTS` stay 0, `FRAME_LEN` stays
within `FRAME_CAP`, and both buffers keep their canonical form and list only elements that exist. -/
def Obligations.StepKeepsStateLegal : Prop :=
  ∀ s t : State, s.wf → step s = .next t → t.wf ∧ t.params = s.params

/-- The reset state is legal, for every legal choice of the parameters and for the spec's own. -/
def Obligations.ResetStateIsLegal : Prop :=
  (∀ p : Params, p.wf → (State.resetWith p).wf) ∧ State.reset.wf

/-- 10_state.md section 4, `FLTS`: the reserved bits read as 0, a command that ends with code `n` sets bit `n`, no command
and no host access clears a bit, and a host write is ignored. -/
def Obligations.FaultBitsAreSticky : Prop :=
  (∀ b : Block, ∀ n, (n = 0 ∨ 10 ≤ n) → (b.hostRead .flts).testBit n = false) ∧
    (∀ (i : Instr) (s t : State), exec i s = .next t → t.block.status ≠ 0#8 →
      t.block.flts.getLsbD t.block.status.toNat = true) ∧
    (∀ s t : State, step s = .next t → s.pending.head? ≠ some .reset →
      ∀ n, s.block.flts.getLsbD n = true → t.block.flts.getLsbD n = true) ∧
    ∀ (p : Params) (b : Block) (v : Nat), b.hostWrite p .flts v = b

/-- 10_state.md section 4, `STATUS`: every command word, legal or not, overwrites it with a code of 0 to 9, whatever it
held; bits 7:5 read as 0; a host write is ignored. -/
def Obligations.EveryCommandOverwritesStatus : Prop :=
  (∀ (c : CommandWord) (s : State), ∃ b, issue c s = .next { s with block := b } ∧ b.status.toNat ≤ 9 ∧
      ∀ old : BitVec 8, ∃ b', issue c { s with block := { s.block with status := old } } =
        .next { s with block := b' } ∧ b'.status = b.status) ∧
    (∀ b : Block, b.hostRead .status = b.status.toNat % 32) ∧
    ∀ (p : Params) (b : Block) (v : Nat), b.hostWrite p .status v = b

/-- The column "written by (out)" of the table of rule R15, with the control registers no command writes (rules R21, R22)
and the export registers (rule R28): a command that is not listed for a register leaves it as it was. -/
def Obligations.OnlyListedCommandsWriteARegister : Prop :=
  ∀ (i : Instr) (s t : State), exec i s = .next t →
    t.block.epoch = s.block.epoch ∧ t.block.frameLen = s.block.frameLen ∧ t.block.segLen = s.block.segLen ∧
    t.block.rejCause = s.block.rejCause ∧ t.block.nnOctets = s.block.nnOctets ∧ t.block.tk = s.block.tk ∧
    t.block.call = s.block.call ∧
    (i ≠ .seg → t.block.segBase = s.block.segBase) ∧
    ((∀ w, i ≠ .rdf w) → t.block.fval = s.block.fval) ∧
    (i ≠ .svcRd → t.block.svcCode = s.block.svcCode ∧ t.block.svcKnown = s.block.svcKnown) ∧
    (i ≠ .sresRd → t.block.sres = s.block.sres) ∧
    (i ≠ .randRd → t.block.randHi = s.block.randHi ∧ t.block.randLo = s.block.randLo) ∧
    (i ≠ .randExp → t.block.randExp = s.block.randExp) ∧
    (i ≠ .nnRd → t.block.nnAlpha = s.block.nnAlpha ∧ t.block.nnCi = s.block.nnCi ∧ t.block.nnExt = s.block.nnExt ∧
      t.block.nnLen = s.block.nnLen ∧ t.block.charbuf = s.block.charbuf) ∧
    (i ≠ .nnRd → i ≠ .nnWr → t.block.nnSpare = s.block.nnSpare) ∧
    (i ≠ .a7Dec → t.block.aChar = s.block.aChar) ∧
    (i ≠ .a7Enc → t.block.aCode = s.block.aCode) ∧
    (i ≠ .tztRd → t.block.calu = s.block.calu) ∧
    (i ≠ .tztRd → i ≠ .smDec → t.block.tzOffSec = s.block.tzOffSec) ∧
    (i ≠ .tztRd → i ≠ .smDec → i ≠ .smEnc → t.block.tzQ = s.block.tzQ) ∧
    (i ≠ .smEnc → t.block.smOctet = s.block.smOctet) ∧
    (i ≠ .bcdDec → t.block.bcdVal = s.block.bcdVal) ∧
    (i ≠ .bcdEnc → t.block.bcdOctet = s.block.bcdOctet)

/-- Rules R41 and R34: a command that is not listed as writing the frame leaves the whole of it as it was, and no command
changes a frame bit at or above `FRAME_LEN`. -/
def Obligations.OnlyListedCommandsWriteTheFrame : Prop :=
  ∀ (i : Instr) (s t : State), exec i s = .next t →
    (¬ writesFrame i → t.block.frame = s.block.frame) ∧
      ∀ a, s.block.frameLen.toNat ≤ a → t.block.bit a = s.block.bit a

/-- Rules R20, R48, R71: a command that succeeds and moves bits at `CURSOR` advances it by exactly that many, without
wrapping, to at most `FRAME_LEN`; every other end leaves `CURSOR` as it was. -/
def Obligations.CursorAdvancesByTheBitsMoved : Prop :=
  ∀ (i : Instr) (s t : State), exec i s = .next t →
    (∀ n, bitsMoved i s = some n → t.block.status = 0#8 →
      t.block.cursor.toNat = s.block.cursor.toNat + n ∧ t.block.cursor.toNat ≤ s.block.frameLen.toNat) ∧
    (bitsMoved i s = none ∨ t.block.status ≠ 0#8 → t.block.cursor = s.block.cursor)

/-- Rule R151: after a fault the next command does exactly what it would have done without it, but that `FLTS` keeps the
fault's bit; and a command that faulted, issued again at once, faults again in the same way. -/
def Obligations.FaultDoesNotChangeTheNextCommand : Prop :=
  (∀ (i : Instr) (s t : State) (c : FaultCode), exec i s = .next t →
    exec i (s.raise c) =
      .next { t with block := { t.block with flts := t.block.flts ||| (1#16 <<< faultNumber c) } }) ∧
  ∀ (i : Instr) (s t : State), exec i s = .next t → t.block.status ≠ 0#8 → exec i t = .next t

/-- 70_reset_and_hazards.md section 1, the consequences of the reset values, for all parameters. In every state with
`FRAME_LEN = 0` a command that moves frame bits at `CURSOR` faults. Every block that a reset leaves, the first or a later
one, is such a state, and there `NOP`, `SEG` and `L8M` succeed and leave the state as it is, and the commands that cannot
fault succeed. (That a later reset gives `Block.afterReset e` is the model's choice, notes/assumptions/7.md.) -/
def Obligations.AfterResetNoFrameBitMoves : Prop :=
  (∀ s : State, s.block.frameLen = 0#16 →
    (∀ w : BitVec 8, 1 ≤ w.toNat → w.toNat ≤ 64 → exec (.rdf w) s = .next (s.raise .truncated)) ∧
    exec .svcRd s = .next (s.raise .truncated) ∧
    exec .sresRd s = .next (s.raise .truncated) ∧
    exec .randRd s = .next (s.raise .truncated) ∧
    exec .tztRd s = .next (s.raise .truncated) ∧
    exec .randWr s = .next (s.raise .frameOverflow) ∧
    ∀ i n, bitsMoved i s = some n → i.wf = true → ∃ c, exec i s = .next (s.raise c)) ∧
  ∀ (s : State) (e : Nat), s.block = Block.afterReset e →
    s.block.frameLen = 0#16 ∧
    exec .nop s = .next s ∧
    exec .seg s = .next s ∧
    exec .l8m s = .next s ∧
    ∀ i, i = .a7Dec ∨ i = .bcdDec ∨ i = .smDec ∨ i = .randExp → ∃ t, exec i s = .next t ∧ t.block.status = 0#8

/-! ## The commands, one by one -/

/-- Rule R73, and that a word `0x00` with another `ARG` is an illegal word, not a `NOP`. -/
def Obligations.NopOnlyClearsStatus : Prop :=
  encode .nop = 0x0000#16 ∧
    (∀ s : State, exec .nop s = .next { s with block := { s.block with status := 0#8 } }) ∧
    ∀ (arg : BitVec 8) (s : State), arg ≠ 0#8 → issue (arg.zeroExtend 16) s = .next (s.raise .illegalCommand)

/-- Rule R74. -/
def Obligations.RdfReadsAFieldAtCursor : Prop :=
  ∀ (w : BitVec 8) (s : State),
    encode (.rdf w) = 0x0100#16 ||| w.zeroExtend 16 ∧
    if w.toNat = 0 ∨ 64 < w.toNat then exec (.rdf w) s = .next (s.raise .illegalCommand)
    else if s.block.frameLen.toNat < s.block.cursor.toNat + w.toNat then exec (.rdf w) s = .next (s.raise .truncated)
    else ∃ b, exec (.rdf w) s = .next { s with block := b } ∧
      b = { s.block with fval := b.fval, cursor := b.cursor, status := 0#8 } ∧
      b.fval.toNat = fieldValue s.block s.block.cursor.toNat w.toNat ∧
      b.cursor.toNat = s.block.cursor.toNat + w.toNat

/-- Rule R75. -/
def Obligations.WrfWritesAFieldAtCursor : Prop :=
  ∀ (w : BitVec 8) (s : State),
    encode (.wrf w) = 0x0200#16 ||| w.zeroExtend 16 ∧
    if w.toNat = 0 ∨ 64 < w.toNat then exec (.wrf w) s = .next (s.raise .illegalCommand)
    else if 2 ^ w.toNat ≤ s.block.fval.toNat then exec (.wrf w) s = .next (s.raise .valueTooWide)
    else if s.block.frameLen.toNat < s.block.cursor.toNat + w.toNat then
      exec (.wrf w) s = .next (s.raise .frameOverflow)
    else ∃ b, exec (.wrf w) s = .next { s with block := b } ∧
      b = { s.block with frame := b.frame, cursor := b.cursor, status := 0#8 } ∧
      holdsField b s.block.cursor.toNat w.toNat s.block.fval.toNat ∧
      frameKeptOutside s.block b s.block.cursor.toNat w.toNat ∧
      b.cursor.toNat = s.block.cursor.toNat + w.toNat

/-- Rule R76. That `SEG_LEN = 0` faults too when `CURSOR` is above `FRAME_LEN` is the model's choice: it follows the rule's
Operation, whose remark says that `SEG_LEN = 0` succeeds (notes/assumptions/15.md, DEDUCED). -/
def Obligations.SegLatchesTheWindowBase : Prop :=
  encode .seg = 0x0300#16 ∧
  ∀ s : State,
    if s.block.frameLen.toNat < s.block.cursor.toNat + s.block.segLen.toNat then
      exec .seg s = .next (s.raise .badLength)
    else exec .seg s = .next { s with block := { s.block with segBase := s.block.cursor, status := 0#8 } }

/-- Rule R77: the octets of the window are reversed, the rest of the frame is as it was, and a second `L8M` restores every
frame bit. That a window of fewer than 8 bits faults too when it passes `FRAME_LEN` is the model's choice: it follows the
rule's Operation, whose remark says that `SEG_LEN < 8` succeeds (notes/assumptions/15.md, DEDUCED). -/
def Obligations.L8mReversesTheOctetsOfTheWindow : Prop :=
  encode .l8m = 0x0400#16 ∧
  ∀ s : State,
    if s.block.frameLen.toNat < s.block.segBase.toNat + s.block.segLen.toNat then
      exec .l8m s = .next (s.raise .badLength)
    else ∃ b, exec .l8m s = .next { s with block := b } ∧
      b = { s.block with frame := b.frame, status := 0#8 } ∧
      (∀ m t, m < s.block.segLen.toNat / 8 → t < 8 →
        b.bit (s.block.segBase.toNat + 8 * m + t) = s.block.bit (s.block.segBase.toNat + 8 * m + 7 - t)) ∧
      frameKeptOutside s.block b s.block.segBase.toNat (8 * (s.block.segLen.toNat / 8)) ∧
      ∃ b', exec .l8m { s with block := b } = .next { s with block := b' } ∧ ∀ a, b'.bit a = s.block.bit a

/-- Rule R121. -/
def Obligations.SvcRdReadsTheServiceType : Prop :=
  encode .svcRd = 0x1000#16 ∧
  ∀ s : State,
    if s.block.frameLen.toNat < s.block.cursor.toNat + 4 then exec .svcRd s = .next (s.raise .truncated)
    else ∃ b, exec .svcRd s = .next { s with block := b } ∧
      b = { s.block with svcCode := b.svcCode, svcKnown := b.svcKnown, cursor := b.cursor, status := 0#8 } ∧
      b.svcCode.toNat = fieldValue s.block s.block.cursor.toNat 4 ∧
      (b.svcKnown = 1#1 ↔ b.svcCode ∈ s.params.svcKnownSet) ∧
      b.cursor.toNat = s.block.cursor.toNat + 4

/-- Rule R122. -/
def Obligations.RejWrWritesTheRejectCause : Prop :=
  encode .rejWr = 0x1100#16 ∧
  ∀ s : State,
    if 256 ≤ s.block.rejCause.toNat then exec .rejWr s = .next (s.raise .valueTooWide)
    else if s.block.frameLen.toNat < s.block.cursor.toNat + 8 then exec .rejWr s = .next (s.raise .frameOverflow)
    else ∃ b, exec .rejWr s = .next { s with block := b } ∧
      b = { s.block with frame := b.frame, cursor := b.cursor, status := 0#8 } ∧
      holdsField b s.block.cursor.toNat 8 s.block.rejCause.toNat ∧
      frameKeptOutside s.block b s.block.cursor.toNat 8 ∧
      b.cursor.toNat = s.block.cursor.toNat + 8

/-- Rule R123. -/
def Obligations.SresRdReadsTheResponse : Prop :=
  encode .sresRd = 0x1200#16 ∧
  ∀ s : State,
    if s.block.frameLen.toNat < s.block.cursor.toNat + 32 then exec .sresRd s = .next (s.raise .truncated)
    else ∃ b, exec .sresRd s = .next { s with block := b } ∧
      b = { s.block with sres := b.sres, cursor := b.cursor, status := 0#8 } ∧
      b.sres.toNat = fieldValue s.block s.block.cursor.toNat 32 ∧
      b.cursor.toNat = s.block.cursor.toNat + 32

/-- Rule R128. -/
def Obligations.RandWrWritesHighThenLow : Prop :=
  encode .randWr = 0x2000#16 ∧
  ∀ s : State,
    if s.block.frameLen.toNat < s.block.cursor.toNat + 128 then exec .randWr s = .next (s.raise .frameOverflow)
    else ∃ b, exec .randWr s = .next { s with block := b } ∧
      b = { s.block with frame := b.frame, cursor := b.cursor, status := 0#8 } ∧
      holdsField b s.block.cursor.toNat 64 s.block.randHi.toNat ∧
      holdsField b (s.block.cursor.toNat + 64) 64 s.block.randLo.toNat ∧
      frameKeptOutside s.block b s.block.cursor.toNat 128 ∧
      b.cursor.toNat = s.block.cursor.toNat + 128

/-- Rule R129, and that `RAND.RD` at the address of a successful `RAND.WR` restores both halves, whatever the two registers
were changed to in between, and ends at the same `CURSOR`. -/
def Obligations.RandRdReadsHighThenLow : Prop :=
  encode .randRd = 0x2100#16 ∧
  (∀ s : State,
    if s.block.frameLen.toNat < s.block.cursor.toNat + 128 then exec .randRd s = .next (s.raise .truncated)
    else ∃ b, exec .randRd s = .next { s with block := b } ∧
      b = { s.block with randHi := b.randHi, randLo := b.randLo, cursor := b.cursor, status := 0#8 } ∧
      b.randHi.toNat = fieldValue s.block s.block.cursor.toNat 64 ∧
      b.randLo.toNat = fieldValue s.block (s.block.cursor.toNat + 64) 64 ∧
      b.cursor.toNat = s.block.cursor.toNat + 128) ∧
  ∀ (s t : State) (hi lo : BitVec 64), exec .randWr s = .next t → t.block.status = 0#8 →
    exec .randRd { t with block := { t.block with cursor := s.block.cursor, randHi := hi, randLo := lo } } = .next t

/-- Rule R130, by its net effect; the wire octets of `RAND.WR` are the same sixteen; and every 16-byte buffer is the export
of exactly one pair of halves. -/
def Obligations.RandExpExportsBigEndian : Prop :=
  encode .randExp = 0x2200#16 ∧
  ∀ s : State, (∃ b, exec .randExp s = .next { s with block := b } ∧
    b = { s.block with randExp := b.randExp, status := 0#8 } ∧
    (∀ k : Fin 16, k.val < 8 → b.randExp[k].toNat = s.block.randHi.toNat / 2 ^ (8 * (7 - k.val)) % 256) ∧
    (∀ k : Fin 16, 8 ≤ k.val → b.randExp[k].toNat = s.block.randLo.toNat / 2 ^ (8 * (15 - k.val)) % 256) ∧
    ∀ t, exec .randWr s = .next t → t.block.status = 0#8 →
      ∀ k : Fin 16, fieldValue t.block (s.block.cursor.toNat + 8 * k.val) 8 = b.randExp[k].toNat) ∧
    ∀ bytes : Vector Octet 16, ∃! halves : BitVec 64 × BitVec 64,
      exec .randExp { s with block := { s.block with randHi := halves.1, randLo := halves.2 } } =
        .next { s with block := { s.block with
          randHi := halves.1, randLo := halves.2, randExp := bytes, status := 0#8 } }

/-- Rule R87: with an injective `ALPHA7` (rule R86), the code of the character, or a fault when it has none. -/
def Obligations.A7EncFindsTheCode : Prop :=
  encode .a7Enc = 0x3200#16 ∧
  ∀ s : State,
    ((∀ code, ¬ alphabetMaps s.params code s.block.aChar) → exec .a7Enc s = .next (s.raise .unmappableChar)) ∧
    ∀ code, alphabetMaps s.params code s.block.aChar → s.params.alpha7.toList.Nodup →
      exec .a7Enc s = .next { s with block := { s.block with aCode := code, status := 0#8 } }

/-- Rule R88, its two inverse properties among them (with an injective `ALPHA7`). -/
def Obligations.A7DecLooksUpTheCharacter : Prop :=
  encode .a7Dec = 0x3300#16 ∧
  ∀ s : State, ∃ ch, alphabetMaps s.params s.block.aCode ch ∧
    exec .a7Dec s = .next { s with block := { s.block with aChar := ch, status := 0#8 } } ∧
    (s.params.alpha7.toList.Nodup → exec .a7Enc { s with block := { s.block with aChar := ch, status := 0#8 } } =
      .next { s with block := { s.block with aChar := ch, status := 0#8 } }) ∧
    ∀ t, exec .a7Enc s = .next t → t.block.status = 0#8 → exec .a7Dec t = .next t

/-- Rule R93: the faults in their order, then the header, the text, the spare count and `CURSOR`. -/
def Obligations.NnWrEncodesANetworkName : Prop :=
  encode .nnWr = 0x3000#16 ∧
  ∀ (s : State) (sz spare len : Nat) (reserved tooLong unmappable : Prop),
    sz = s.block.nnLen.toNat →
    (reserved ↔ s.block.nnAlpha ≠ 0#3 ∧ s.block.nnAlpha ≠ s.params.alphaSelWide) →
    (tooLong ↔ s.params.nnMaxChars < sz) →
    (unmappable ↔ s.block.nnAlpha = 0#3 ∧ ∃ k < sz, ∀ code, ¬ alphabetMaps s.params code (s.block.char k)) →
    spare = (if s.block.nnAlpha = 0#3 then (8 - 7 * sz % 8) % 8 else 0) →
    len = 8 + (if s.block.nnAlpha = 0#3 then 7 * sz + spare else 16 * sz) →
    (reserved → exec .nnWr s = .next (s.raise .reservedAlphabet)) ∧
    (¬ reserved → tooLong → exec .nnWr s = .next (s.raise .textOverflow)) ∧
    (¬ reserved → ¬ tooLong → unmappable → exec .nnWr s = .next (s.raise .unmappableChar)) ∧
    (¬ reserved → ¬ tooLong → ¬ unmappable → s.block.frameLen.toNat < s.block.cursor.toNat + len →
      exec .nnWr s = .next (s.raise .frameOverflow)) ∧
    (¬ reserved → ¬ tooLong → ¬ unmappable → s.block.cursor.toNat + len ≤ s.block.frameLen.toNat →
      ∃ b, exec .nnWr s = .next { s with block := b } ∧
        b = { s.block with frame := b.frame, nnSpare := b.nnSpare, cursor := b.cursor, status := 0#8 } ∧
        holdsField b s.block.cursor.toNat 8
          (128 + 16 * s.block.nnAlpha.toNat + 8 * s.block.nnCi.toNat + spare) ∧
        (s.block.nnAlpha = 0#3 →
          (∀ k < sz, ∃ code, alphabetMaps s.params code (s.block.char k) ∧
            ∀ j < 7, streamBit b (s.block.cursor.toNat + 8) (7 * k + j) = code.getLsbD j) ∧
          ∀ j < spare, streamBit b (s.block.cursor.toNat + 8) (7 * sz + j) = false) ∧
        (s.block.nnAlpha ≠ 0#3 →
          ∀ k < sz, holdsField b (s.block.cursor.toNat + 8 + 16 * k) 16 (s.block.char k).toNat) ∧
        frameKeptOutside s.block b s.block.cursor.toNat len ∧
        b.nnSpare.toNat = spare ∧ b.cursor.toNat = s.block.cursor.toNat + len)

/-- Rule R94: the faults in their order, then the header's fields, the characters and `CURSOR`. `hdr` is the header octet
as read; it plays no part in the first two faults. -/
def Obligations.NnRdParsesANetworkName : Prop :=
  encode .nnRd = 0x3100#16 ∧
  ∀ (s : State) (hdr : Octet) (octets textBits spare sz base : Nat) (reserved badLength : Prop), s.params.wf →
    octets = s.block.nnOctets.toNat → textBits = 8 * (octets - 1) → base = s.block.cursor.toNat + 8 →
    hdr.toNat = fieldValue s.block s.block.cursor.toNat 8 →
    spare = (if hdr.extractLsb' 4 3 = 0#3 then hdr.toNat % 8 else 0) →
    sz = (if hdr.extractLsb' 4 3 = 0#3 then (textBits - spare) / 7 else textBits / 16) →
    (reserved ↔ hdr.extractLsb' 4 3 ≠ 0#3 ∧ hdr.extractLsb' 4 3 ≠ s.params.alphaSelWide) →
    (badLength ↔ if hdr.extractLsb' 4 3 = 0#3 then textBits < spare ∨ (textBits - spare) % 7 ≠ 0
      else textBits % 16 ≠ 0) →
    (octets = 0 → exec .nnRd s = .next (s.raise .badLength)) ∧
    (octets ≠ 0 → s.block.frameLen.toNat < s.block.cursor.toNat + 8 * octets →
      exec .nnRd s = .next (s.raise .truncated)) ∧
    (octets ≠ 0 → s.block.cursor.toNat + 8 * octets ≤ s.block.frameLen.toNat →
      (reserved → exec .nnRd s = .next (s.raise .reservedAlphabet)) ∧
      (¬ reserved → badLength → exec .nnRd s = .next (s.raise .badLength)) ∧
      (¬ reserved → ¬ badLength → s.params.nnMaxChars < sz → exec .nnRd s = .next (s.raise .textOverflow)) ∧
      (¬ reserved → ¬ badLength → sz ≤ s.params.nnMaxChars →
        ∃ b, exec .nnRd s = .next { s with block := b } ∧
          b = { s.block with
            nnExt := hdr.extractLsb' 7 1, nnAlpha := hdr.extractLsb' 4 3, nnCi := hdr.extractLsb' 3 1,
            nnSpare := hdr.extractLsb' 0 3, nnLen := b.nnLen, charbuf := b.charbuf, cursor := b.cursor,
            status := 0#8 } ∧
          b.nnLen.toNat = sz ∧
          (hdr.extractLsb' 4 3 = 0#3 → ∀ k < sz, ∃ code : Code7,
            (∀ j < 7, code.getLsbD j = streamBit s.block base (7 * k + j)) ∧
              alphabetMaps s.params code (b.char k)) ∧
          (hdr.extractLsb' 4 3 ≠ 0#3 → ∀ k < sz, (b.char k).toNat = fieldValue s.block (base + 16 * k) 16) ∧
          (∀ k, sz ≤ k → b.char k = s.block.char k) ∧
          b.cursor.toNat = s.block.cursor.toNat + 8 * octets))

/-- Rule R103. -/
def Obligations.BcdEncSwapsTheDigits : Prop :=
  encode .bcdEnc = 0x4200#16 ∧
  ∀ s : State,
    if 100 ≤ s.block.bcdVal.toNat then exec .bcdEnc s = .next (s.raise .fieldOutOfContract)
    else ∃ o : Octet, o.toNat = 16 * (s.block.bcdVal.toNat % 10) + s.block.bcdVal.toNat / 10 ∧
      exec .bcdEnc s = .next { s with block := { s.block with bcdOctet := o, status := 0#8 } }

/-- Rule R104. -/
def Obligations.BcdDecAddsTheDigits : Prop :=
  encode .bcdDec = 0x4300#16 ∧
  ∀ s : State, ∃ v : BitVec 8, v.toNat = s.block.bcdOctet.toNat / 16 + 10 * (s.block.bcdOctet.toNat % 16) ∧
    exec .bcdDec s = .next { s with block := { s.block with bcdVal := v, status := 0#8 } }

/-- Rule R108. -/
def Obligations.SmEncEncodesTheOffset : Prop :=
  encode .smEnc = 0x4400#16 ∧
  ∀ (s : State) (q : Int), q = Int.tdiv s.block.tzOffSec.toInt 900 →
    if 79 < q.natAbs then exec .smEnc s = .next (s.raise .valueTooWide)
    else ∃ b, exec .smEnc s = .next { s with block := b } ∧
      b = { s.block with tzQ := b.tzQ, smOctet := b.smOctet, status := 0#8 } ∧
      b.tzQ.toInt = q ∧
      b.smOctet.toNat =
        zoneNumber s.params.tzLayout (q.natAbs % 10) (if q < 0 then 1 else 0) (q.natAbs / 10)

/-- Rule R109. The subfields of an octet are the one triple within its widths that gives it; a negative zero is read as 0
and written back as `0x00`; and after a successful `SM.ENC`, `SM.DEC` restores `TZ_Q` and gives the offset in whole
quarter-hours, which is the original offset exactly when that was a multiple of 900. -/
def Obligations.SmDecDecodesTheOctet : Prop :=
  encode .smDec = 0x4500#16 ∧
  ∀ s : State, ∃ (u sg t : Nat) (b : Block), u < 16 ∧ sg < 2 ∧ t < 8 ∧
    s.block.smOctet.toNat = zoneNumber s.params.tzLayout u sg t ∧
    exec .smDec s = .next { s with block := b } ∧
    b = { s.block with tzQ := b.tzQ, tzOffSec := b.tzOffSec, status := 0#8 } ∧
    b.tzQ.toInt = (if sg = 1 then -((u : Int) + 10 * t) else (u : Int) + 10 * t) ∧
    b.tzOffSec.toInt = 900 * b.tzQ.toInt ∧
    (u = 0 → t = 0 → exec .smEnc { s with block := b } = .next { s with block := { b with smOctet := 0#8 } }) ∧
    ∀ t, exec .smEnc s = .next t → t.block.status = 0#8 →
      ∃ off : BitVec 32, exec .smDec t = .next { t with block := { t.block with tzOffSec := off } } ∧
        off.toInt = 900 * t.block.tzQ.toInt ∧
        (off = s.block.tzOffSec ↔ s.block.tzOffSec.toInt % 900 = 0)

/-- Rule R113: the faults in their order, then the twelve digits, the zone subfields and `CURSOR`. -/
def Obligations.TztWrEncodesTheTime : Prop :=
  encode .tztWr = 0x4000#16 ∧
  ∀ (s : State) (bank : CalBank) (v : Fin 6 → Nat) (q : Int) (u sg t : Nat),
    bank = (if s.block.tk = 0#1 then s.block.call else s.block.calu) →
    v = ![bank.year.toNat % 100, bank.mon.toNat, bank.day.toNat, bank.hour.toNat, bank.min.toNat,
      bank.sec.toNat] →
    q = Int.tdiv s.block.tzOffSec.toInt 900 →
    u = q.natAbs % 10 → sg = (if q < 0 then 1 else 0) → t = q.natAbs / 10 →
    if ∃ i, 100 ≤ v i then exec .tztWr s = .next (s.raise .fieldOutOfContract)
    else if 79 < q.natAbs then exec .tztWr s = .next (s.raise .valueTooWide)
    else if s.block.frameLen.toNat < s.block.cursor.toNat + 56 then exec .tztWr s = .next (s.raise .frameOverflow)
    else ∃ b, exec .tztWr s = .next { s with block := b } ∧
      b = { s.block with frame := b.frame, cursor := b.cursor, status := 0#8 } ∧
      (∀ i : Fin 6, holdsField b (s.block.cursor.toNat + 8 * i.val) 4 (v i % 10) ∧
        holdsField b (s.block.cursor.toNat + 8 * i.val + 4) 4 (v i / 10)) ∧
      holdsField b (s.block.cursor.toNat + 48) 8 (zoneNumber s.params.tzLayout u sg t) ∧
      frameKeptOutside s.block b s.block.cursor.toNat 56 ∧
      b.cursor.toNat = s.block.cursor.toNat + 56

/-- Rule R114. The subfields of the zone octet are the one triple within its widths that gives it. -/
def Obligations.TztRdDecodesTheTime : Prop :=
  encode .tztRd = 0x4100#16 ∧
  ∀ (s : State) (d : Nat → Nat), s.params.wf →
    (∀ i, d i = fieldValue s.block (s.block.cursor.toNat + 8 * i) 4 +
      10 * fieldValue s.block (s.block.cursor.toNat + 8 * i + 4) 4) →
    if s.block.frameLen.toNat < s.block.cursor.toNat + 56 then exec .tztRd s = .next (s.raise .truncated)
    else ∃ (u sg t : Nat) (b : Block), u < 16 ∧ sg < 2 ∧ t < 8 ∧
      fieldValue s.block (s.block.cursor.toNat + 48) 8 = zoneNumber s.params.tzLayout u sg t ∧
      exec .tztRd s = .next { s with block := b } ∧
      b = { s.block with calu := b.calu, tzQ := b.tzQ, tzOffSec := b.tzOffSec, cursor := b.cursor, status := 0#8 } ∧
      b.calu.year.toNat = s.params.centuryBase + d 0 ∧
      b.calu.mon.toNat = d 1 ∧ b.calu.day.toNat = d 2 ∧ b.calu.hour.toNat = d 3 ∧ b.calu.min.toNat = d 4 ∧
      b.calu.sec.toNat = d 5 ∧
      b.tzQ.toInt = (if sg = 1 then -((u : Int) + 10 * t) else (u : Int) + 10 * t) ∧
      b.tzOffSec.toInt = 900 * b.tzQ.toInt ∧
      b.cursor.toNat = s.block.cursor.toNat + 56

/-! ## What the operations do together -/

/-- 00_scope.md section 6, the pseudocode primitives: `MemRead` is the sum of rule R11, and `MemWrite` stores the value's
bits and changes no other. -/
def Obligations.MemReadAndMemWriteMoveOneField : Prop :=
  ∀ (b : Block) (pos n v : Nat),
    memRead b.epoch b.frame pos n = fieldValue b pos n ∧
    holdsField { b with frame := memWrite b.epoch b.frame pos n v } pos n v ∧
    frameKeptOutside b { b with frame := memWrite b.epoch b.frame pos n v } pos n ∧
    (v < 2 ^ n → fieldValue { b with frame := memWrite b.epoch b.frame pos n v } pos n = v)

/-- Rule R46: two adjacent fields are the halves of the wider one, and the host's octet window shows the same bits. -/
def Obligations.MixedWidthAccessSeesTheSameBits : Prop :=
  (∀ (b : Block) (pos m n : Nat), fieldValue b pos (m + n) = 2 ^ n * fieldValue b pos m + fieldValue b (pos + m) n) ∧
    ∀ (b : Block) (k : Nat), b.hostRead (.frame k) = fieldValue b (8 * k) 8

/-- Rule R72: what `Normalise` does to the window, that it keeps the rest, and that it is an involution. -/
def Obligations.NormaliseReversesEachOctet : Prop :=
  ∀ (b b' b'' : Block) (base len : Nat),
    b' = { b with frame := normalise b.epoch b.frame base len } →
    b'' = { b with frame := normalise b.epoch b'.frame base len } →
    (∀ m t, m < len / 8 → t < 8 → b'.bit (base + 8 * m + t) = b.bit (base + 8 * m + 7 - t)) ∧
    (∀ a, (a < base ∨ base + 8 * (len / 8) ≤ a) → b'.bit a = b.bit a) ∧
    ∀ a, b''.bit a = b.bit a

/-- Rule R89. -/
def Obligations.SpareCountAlignsTheText : Prop :=
  ∀ sz : Nat, spareCount sz = (8 - (sz * 7) % 8) % 8 ∧ spareCount sz ≤ 7 ∧ (sz * 7 + spareCount sz) % 8 = 0 ∧
    spareCount sz = sz % 8

/-- Rule R90: the bits of the packed text by its three steps, its octets by their net effect, and that reading the codes
back from a frame that holds it gives the codes. -/
def Obligations.PackedTextUnpacks : Prop :=
  ∀ codes : List Code7, ∃ W : Nat → Bool,
    (pack7 codes).length = 7 * codes.length + spareCount codes.length ∧
    (∀ i < 7 * codes.length + spareCount codes.length, (pack7 codes)[i]? = some (W i)) ∧
    (∀ m t k j, t < 8 → 8 * m + t = 7 * k + j → j < 7 → ∀ code, codes[k]? = some code →
      W (8 * m + 7 - t) = code.getLsbD j) ∧
    (∀ m t j, t < 8 → 8 * m + t = 7 * codes.length + j → j < spareCount codes.length → W (8 * m + 7 - t) = false) ∧
    ∀ (e : Nat) (f : Memory 8) (base k : Nat) (code : Code7), codes[k]? = some code →
      unpackCode e (frameWriteBits e f base (pack7 codes)) base k = code

/-- Rule R78: building the text from the primitives (each `rev_7(code)` as a 7-bit field, then the spare bits as zeros,
then one `Normalise` over the region) gives the frame bits that `NN.WR` writes. -/
def Obligations.PrimitivesBuildThePackedText : Prop :=
  ∀ (e : Nat) (f : Memory 8) (base : Nat) (codes : List Code7) (a : Nat),
    frameBit e
        (normalise e
          (memWriteFields e f base
            (codes.map (fun c => (7, revBits 7 c.toNat)) ++ [(spareCount codes.length, 0)]))
          base (7 * codes.length + spareCount codes.length)) a =
      frameBit e (frameWriteBits e f base (pack7 codes)) a

/-- Rule R102: the digit-swapped octet gives back every value of 0 to 99, and no octet gives more than 165; by the
commands, `BCD.DEC` after a successful `BCD.ENC` leaves `BCD_VAL` as it was. -/
def Obligations.BcdRoundTrip : Prop :=
  (∀ v ≤ 99, bcdOctetOf v = BitVec.ofNat 4 (v % 10) ++ BitVec.ofNat 4 (v / 10) ∧ bcdValueOf (bcdOctetOf v) = v) ∧
    (∀ o : Octet, bcdValueOf o = (o.extractLsb' 4 4).toNat + 10 * (o.extractLsb' 0 4).toNat ∧ bcdValueOf o ≤ 165) ∧
    bcdValueOf 0xFF#8 = 165 ∧
    ∀ s t : State, exec .bcdEnc s = .next t → t.block.status = 0#8 → exec .bcdDec t = .next t

/-- 42_bcd_time_codec.md section 6: `TZT.RD` after a successful `TZT.WR` at the same address. The fields stand in the
universal bank whichever bank was written, and `TK` and the local bank are untouched (the asymmetry of section 5). -/
def Obligations.TimeElementRoundTrip : Prop :=
  ∀ (s t : State) (bank : CalBank), s.params.wf →
    bank = (if s.block.tk = 0#1 then s.block.call else s.block.calu) →
    exec .tztWr s = .next t → t.block.status = 0#8 →
    ∃ b, exec .tztRd { t with block := { t.block with cursor := s.block.cursor } } = .next { t with block := b } ∧
      b = { t.block with calu := b.calu, tzQ := b.tzQ, tzOffSec := b.tzOffSec } ∧
      b.calu = { bank with year := b.calu.year } ∧
      b.calu.year.toNat = s.params.centuryBase + bank.year.toNat % 100 ∧
      b.tzQ.toInt = Int.tdiv s.block.tzOffSec.toInt 900 ∧
      b.tzOffSec.toInt = 900 * b.tzQ.toInt

/-- Rule R124: the three round trips of the one-directional elements, with the raw field accesses of rule R68 in the place
of the missing direction. -/
def Obligations.FixedFieldRoundTrips : Prop :=
  (∀ s t : State, exec (.wrf 4#8) s = .next t → t.block.status = 0#8 →
    ∃ u, exec .svcRd { t with block := { t.block with cursor := s.block.cursor } } = .next u ∧
      u.block.status = 0#8 ∧ u.block.svcCode.toNat = s.block.fval.toNat) ∧
  (∀ s t : State, exec .rejWr s = .next t → t.block.status = 0#8 →
    ∃ u, exec (.rdf 8#8) { t with block := { t.block with cursor := s.block.cursor } } = .next u ∧
      u.block.status = 0#8 ∧ u.block.fval.toNat = s.block.rejCause.toNat) ∧
  ∀ s t : State, exec (.wrf 32#8) s = .next t → t.block.status = 0#8 →
    ∃ u, exec .sresRd { t with block := { t.block with cursor := s.block.cursor } } = .next u ∧
      u.block.status = 0#8 ∧ u.block.sres.toNat = s.block.fval.toNat

/-- Rule R96: parsing the element that `NN.WR` wrote restores the name, and when the element's length fits `NN_OCTETS`. -/
def Obligations.NetworkNameRoundTrip : Prop :=
  ∀ (s t : State) (octets : Nat), s.params.wf → exec .nnWr s = .next t → t.block.status = 0#8 →
    octets = (t.block.cursor.toNat - s.block.cursor.toNat) / 8 →
    (s.block.nnAlpha = 0#3 → s.block.nnLen.toNat ≤ 93 → octets ≤ 83) ∧
    (s.block.nnAlpha ≠ 0#3 → s.block.nnLen.toNat ≤ 127 → octets ≤ 255) ∧
    (octets ≤ 255 →
      ∃ b, exec .nnRd { t with block := { t.block with
            cursor := s.block.cursor, nnOctets := BitVec.ofNat 8 octets } } = .next { t with block := b } ∧
        b.status = 0#8 ∧ b.nnAlpha = s.block.nnAlpha ∧ b.nnCi = s.block.nnCi ∧ b.nnLen = s.block.nnLen ∧
        (∀ k < s.block.nnLen.toNat, b.char k = s.block.char k) ∧ b.nnExt = 1#1 ∧
        b.nnSpare.toNat = (if s.block.nnAlpha = 0#3 then s.block.nnLen.toNat % 8 else 0) ∧
        b.cursor = t.block.cursor)
end

