-- ==== Sys2Proof/Laws/State.lean ====
section
/-!
SUPPORT. One lemma per field per named update of the block and of the machine, each true by `rfl`, so that no later proof
unfolds a record update.
-/

namespace Sys2Proof.Machine

/-! ## The entry of a fault -/

@[simp] theorem Block.raise_epoch (b : Block) (c : FaultCode) : (b.raise c).epoch = b.epoch := rfl
@[simp] theorem Block.raise_status (b : Block) (c : FaultCode) : (b.raise c).status = statusOf c := rfl
@[simp] theorem Block.raise_flts (b : Block) (c : FaultCode) : (b.raise c).flts = fltsWith b.flts c := rfl
@[simp] theorem Block.raise_cursor (b : Block) (c : FaultCode) : (b.raise c).cursor = b.cursor := rfl
@[simp] theorem Block.raise_frameLen (b : Block) (c : FaultCode) : (b.raise c).frameLen = b.frameLen := rfl
@[simp] theorem Block.raise_segBase (b : Block) (c : FaultCode) : (b.raise c).segBase = b.segBase := rfl
@[simp] theorem Block.raise_segLen (b : Block) (c : FaultCode) : (b.raise c).segLen = b.segLen := rfl
@[simp] theorem Block.raise_fval (b : Block) (c : FaultCode) : (b.raise c).fval = b.fval := rfl
@[simp] theorem Block.raise_svcCode (b : Block) (c : FaultCode) : (b.raise c).svcCode = b.svcCode := rfl
@[simp] theorem Block.raise_svcKnown (b : Block) (c : FaultCode) : (b.raise c).svcKnown = b.svcKnown := rfl
@[simp] theorem Block.raise_rejCause (b : Block) (c : FaultCode) : (b.raise c).rejCause = b.rejCause := rfl
@[simp] theorem Block.raise_sres (b : Block) (c : FaultCode) : (b.raise c).sres = b.sres := rfl
@[simp] theorem Block.raise_randHi (b : Block) (c : FaultCode) : (b.raise c).randHi = b.randHi := rfl
@[simp] theorem Block.raise_randLo (b : Block) (c : FaultCode) : (b.raise c).randLo = b.randLo := rfl
@[simp] theorem Block.raise_randExp (b : Block) (c : FaultCode) : (b.raise c).randExp = b.randExp := rfl
@[simp] theorem Block.raise_nnAlpha (b : Block) (c : FaultCode) : (b.raise c).nnAlpha = b.nnAlpha := rfl
@[simp] theorem Block.raise_nnCi (b : Block) (c : FaultCode) : (b.raise c).nnCi = b.nnCi := rfl
@[simp] theorem Block.raise_nnSpare (b : Block) (c : FaultCode) : (b.raise c).nnSpare = b.nnSpare := rfl
@[simp] theorem Block.raise_nnExt (b : Block) (c : FaultCode) : (b.raise c).nnExt = b.nnExt := rfl
@[simp] theorem Block.raise_nnLen (b : Block) (c : FaultCode) : (b.raise c).nnLen = b.nnLen := rfl
@[simp] theorem Block.raise_nnOctets (b : Block) (c : FaultCode) : (b.raise c).nnOctets = b.nnOctets := rfl
@[simp] theorem Block.raise_charbuf (b : Block) (c : FaultCode) : (b.raise c).charbuf = b.charbuf := rfl
@[simp] theorem Block.raise_aChar (b : Block) (c : FaultCode) : (b.raise c).aChar = b.aChar := rfl
@[simp] theorem Block.raise_aCode (b : Block) (c : FaultCode) : (b.raise c).aCode = b.aCode := rfl
@[simp] theorem Block.raise_tk (b : Block) (c : FaultCode) : (b.raise c).tk = b.tk := rfl
@[simp] theorem Block.raise_call (b : Block) (c : FaultCode) : (b.raise c).call = b.call := rfl
@[simp] theorem Block.raise_calu (b : Block) (c : FaultCode) : (b.raise c).calu = b.calu := rfl
@[simp] theorem Block.raise_tzOffSec (b : Block) (c : FaultCode) : (b.raise c).tzOffSec = b.tzOffSec := rfl
@[simp] theorem Block.raise_tzQ (b : Block) (c : FaultCode) : (b.raise c).tzQ = b.tzQ := rfl
@[simp] theorem Block.raise_smOctet (b : Block) (c : FaultCode) : (b.raise c).smOctet = b.smOctet := rfl
@[simp] theorem Block.raise_bcdVal (b : Block) (c : FaultCode) : (b.raise c).bcdVal = b.bcdVal := rfl
@[simp] theorem Block.raise_bcdOctet (b : Block) (c : FaultCode) : (b.raise c).bcdOctet = b.bcdOctet := rfl
@[simp] theorem Block.raise_frame (b : Block) (c : FaultCode) : (b.raise c).frame = b.frame := rfl

/-! ## Moving `CURSOR` -/

@[simp] theorem Block.advance_epoch (b : Block) (n : Nat) : (b.advance n).epoch = b.epoch := rfl
@[simp] theorem Block.advance_status (b : Block) (n : Nat) : (b.advance n).status = b.status := rfl
@[simp] theorem Block.advance_flts (b : Block) (n : Nat) : (b.advance n).flts = b.flts := rfl
@[simp] theorem Block.advance_cursor (b : Block) (n : Nat) : (b.advance n).cursor = BitVec.ofNat 16 (b.cursor.toNat + n) := rfl
@[simp] theorem Block.advance_frameLen (b : Block) (n : Nat) : (b.advance n).frameLen = b.frameLen := rfl
@[simp] theorem Block.advance_segBase (b : Block) (n : Nat) : (b.advance n).segBase = b.segBase := rfl
@[simp] theorem Block.advance_segLen (b : Block) (n : Nat) : (b.advance n).segLen = b.segLen := rfl
@[simp] theorem Block.advance_fval (b : Block) (n : Nat) : (b.advance n).fval = b.fval := rfl
@[simp] theorem Block.advance_svcCode (b : Block) (n : Nat) : (b.advance n).svcCode = b.svcCode := rfl
@[simp] theorem Block.advance_svcKnown (b : Block) (n : Nat) : (b.advance n).svcKnown = b.svcKnown := rfl
@[simp] theorem Block.advance_rejCause (b : Block) (n : Nat) : (b.advance n).rejCause = b.rejCause := rfl
@[simp] theorem Block.advance_sres (b : Block) (n : Nat) : (b.advance n).sres = b.sres := rfl
@[simp] theorem Block.advance_randHi (b : Block) (n : Nat) : (b.advance n).randHi = b.randHi := rfl
@[simp] theorem Block.advance_randLo (b : Block) (n : Nat) : (b.advance n).randLo = b.randLo := rfl
@[simp] theorem Block.advance_randExp (b : Block) (n : Nat) : (b.advance n).randExp = b.randExp := rfl
@[simp] theorem Block.advance_nnAlpha (b : Block) (n : Nat) : (b.advance n).nnAlpha = b.nnAlpha := rfl
@[simp] theorem Block.advance_nnCi (b : Block) (n : Nat) : (b.advance n).nnCi = b.nnCi := rfl
@[simp] theorem Block.advance_nnSpare (b : Block) (n : Nat) : (b.advance n).nnSpare = b.nnSpare := rfl
@[simp] theorem Block.advance_nnExt (b : Block) (n : Nat) : (b.advance n).nnExt = b.nnExt := rfl
@[simp] theorem Block.advance_nnLen (b : Block) (n : Nat) : (b.advance n).nnLen = b.nnLen := rfl
@[simp] theorem Block.advance_nnOctets (b : Block) (n : Nat) : (b.advance n).nnOctets = b.nnOctets := rfl
@[simp] theorem Block.advance_charbuf (b : Block) (n : Nat) : (b.advance n).charbuf = b.charbuf := rfl
@[simp] theorem Block.advance_aChar (b : Block) (n : Nat) : (b.advance n).aChar = b.aChar := rfl
@[simp] theorem Block.advance_aCode (b : Block) (n : Nat) : (b.advance n).aCode = b.aCode := rfl
@[simp] theorem Block.advance_tk (b : Block) (n : Nat) : (b.advance n).tk = b.tk := rfl
@[simp] theorem Block.advance_call (b : Block) (n : Nat) : (b.advance n).call = b.call := rfl
@[simp] theorem Block.advance_calu (b : Block) (n : Nat) : (b.advance n).calu = b.calu := rfl
@[simp] theorem Block.advance_tzOffSec (b : Block) (n : Nat) : (b.advance n).tzOffSec = b.tzOffSec := rfl
@[simp] theorem Block.advance_tzQ (b : Block) (n : Nat) : (b.advance n).tzQ = b.tzQ := rfl
@[simp] theorem Block.advance_smOctet (b : Block) (n : Nat) : (b.advance n).smOctet = b.smOctet := rfl
@[simp] theorem Block.advance_bcdVal (b : Block) (n : Nat) : (b.advance n).bcdVal = b.bcdVal := rfl
@[simp] theorem Block.advance_bcdOctet (b : Block) (n : Nat) : (b.advance n).bcdOctet = b.bcdOctet := rfl
@[simp] theorem Block.advance_frame (b : Block) (n : Nat) : (b.advance n).frame = b.frame := rfl

/-! ## Writing fields at `CURSOR` -/

@[simp] theorem Block.writeFields_epoch (b : Block) (xs : List (Nat × Nat)) : (b.writeFields xs).epoch = b.epoch := rfl
@[simp] theorem Block.writeFields_status (b : Block) (xs : List (Nat × Nat)) :
    (b.writeFields xs).status = b.status := rfl
@[simp] theorem Block.writeFields_flts (b : Block) (xs : List (Nat × Nat)) : (b.writeFields xs).flts = b.flts := rfl
@[simp] theorem Block.writeFields_cursor (b : Block) (xs : List (Nat × Nat)) :
    (b.writeFields xs).cursor = BitVec.ofNat 16 (b.cursor.toNat + (xs.map Prod.fst).sum) := rfl
@[simp] theorem Block.writeFields_frameLen (b : Block) (xs : List (Nat × Nat)) :
    (b.writeFields xs).frameLen = b.frameLen := rfl
@[simp] theorem Block.writeFields_segBase (b : Block) (xs : List (Nat × Nat)) :
    (b.writeFields xs).segBase = b.segBase := rfl
@[simp] theorem Block.writeFields_segLen (b : Block) (xs : List (Nat × Nat)) :
    (b.writeFields xs).segLen = b.segLen := rfl
@[simp] theorem Block.writeFields_fval (b : Block) (xs : List (Nat × Nat)) : (b.writeFields xs).fval = b.fval := rfl
@[simp] theorem Block.writeFields_svcCode (b : Block) (xs : List (Nat × Nat)) :
    (b.writeFields xs).svcCode = b.svcCode := rfl
@[simp] theorem Block.writeFields_svcKnown (b : Block) (xs : List (Nat × Nat)) :
    (b.writeFields xs).svcKnown = b.svcKnown := rfl
@[simp] theorem Block.writeFields_rejCause (b : Block) (xs : List (Nat × Nat)) :
    (b.writeFields xs).rejCause = b.rejCause := rfl
@[simp] theorem Block.writeFields_sres (b : Block) (xs : List (Nat × Nat)) : (b.writeFields xs).sres = b.sres := rfl
@[simp] theorem Block.writeFields_randHi (b : Block) (xs : List (Nat × Nat)) :
    (b.writeFields xs).randHi = b.randHi := rfl
@[simp] theorem Block.writeFields_randLo (b : Block) (xs : List (Nat × Nat)) :
    (b.writeFields xs).randLo = b.randLo := rfl
@[simp] theorem Block.writeFields_randExp (b : Block) (xs : List (Nat × Nat)) :
    (b.writeFields xs).randExp = b.randExp := rfl
@[simp] theorem Block.writeFields_nnAlpha (b : Block) (xs : List (Nat × Nat)) :
    (b.writeFields xs).nnAlpha = b.nnAlpha := rfl
@[simp] theorem Block.writeFields_nnCi (b : Block) (xs : List (Nat × Nat)) : (b.writeFields xs).nnCi = b.nnCi := rfl
@[simp] theorem Block.writeFields_nnSpare (b : Block) (xs : List (Nat × Nat)) :
    (b.writeFields xs).nnSpare = b.nnSpare := rfl
@[simp] theorem Block.writeFields_nnExt (b : Block) (xs : List (Nat × Nat)) : (b.writeFields xs).nnExt = b.nnExt := rfl
@[simp] theorem Block.writeFields_nnLen (b : Block) (xs : List (Nat × Nat)) : (b.writeFields xs).nnLen = b.nnLen := rfl
@[simp] theorem Block.writeFields_nnOctets (b : Block) (xs : List (Nat × Nat)) :
    (b.writeFields xs).nnOctets = b.nnOctets := rfl
@[simp] theorem Block.writeFields_charbuf (b : Block) (xs : List (Nat × Nat)) :
    (b.writeFields xs).charbuf = b.charbuf := rfl
@[simp] theorem Block.writeFields_aChar (b : Block) (xs : List (Nat × Nat)) : (b.writeFields xs).aChar = b.aChar := rfl
@[simp] theorem Block.writeFields_aCode (b : Block) (xs : List (Nat × Nat)) : (b.writeFields xs).aCode = b.aCode := rfl
@[simp] theorem Block.writeFields_tk (b : Block) (xs : List (Nat × Nat)) : (b.writeFields xs).tk = b.tk := rfl
@[simp] theorem Block.writeFields_call (b : Block) (xs : List (Nat × Nat)) : (b.writeFields xs).call = b.call := rfl
@[simp] theorem Block.writeFields_calu (b : Block) (xs : List (Nat × Nat)) : (b.writeFields xs).calu = b.calu := rfl
@[simp] theorem Block.writeFields_tzOffSec (b : Block) (xs : List (Nat × Nat)) :
    (b.writeFields xs).tzOffSec = b.tzOffSec := rfl
@[simp] theorem Block.writeFields_tzQ (b : Block) (xs : List (Nat × Nat)) : (b.writeFields xs).tzQ = b.tzQ := rfl
@[simp] theorem Block.writeFields_smOctet (b : Block) (xs : List (Nat × Nat)) :
    (b.writeFields xs).smOctet = b.smOctet := rfl
@[simp] theorem Block.writeFields_bcdVal (b : Block) (xs : List (Nat × Nat)) :
    (b.writeFields xs).bcdVal = b.bcdVal := rfl
@[simp] theorem Block.writeFields_bcdOctet (b : Block) (xs : List (Nat × Nat)) :
    (b.writeFields xs).bcdOctet = b.bcdOctet := rfl
@[simp] theorem Block.writeFields_frame (b : Block) (xs : List (Nat × Nat)) :
    (b.writeFields xs).frame = memWriteFields b.epoch b.frame b.cursor.toNat xs := rfl

/-! ## The machine -/

@[simp] theorem State.command_params (s : State) (op : Operation) : (s.command op).params = s.params := rfl
@[simp] theorem State.command_pending (s : State) (op : Operation) : (s.command op).pending = s.pending := rfl
@[simp] theorem State.command_lastRead (s : State) (op : Operation) : (s.command op).lastRead = s.lastRead := rfl
@[simp] theorem State.command_block (s : State) (op : Operation) : (s.command op).block = s.block.finish (op s.params s.block) := rfl
@[simp] theorem State.raise_params (s : State) (c : FaultCode) : (s.raise c).params = s.params := rfl
@[simp] theorem State.raise_pending (s : State) (c : FaultCode) : (s.raise c).pending = s.pending := rfl
@[simp] theorem State.raise_lastRead (s : State) (c : FaultCode) : (s.raise c).lastRead = s.lastRead := rfl
@[simp] theorem State.raise_block (s : State) (c : FaultCode) : (s.raise c).block = s.block.raise c := rfl
@[simp] theorem State.applyReset_params (s : State) : s.applyReset.params = s.params := rfl
@[simp] theorem State.applyReset_pending (s : State) : s.applyReset.pending = s.pending := rfl
@[simp] theorem State.applyReset_lastRead (s : State) : s.applyReset.lastRead = s.lastRead := rfl
@[simp] theorem State.applyReset_block (s : State) : s.applyReset.block = Block.afterReset (s.block.epoch + 1) := rfl

@[simp] theorem Block.finish_error (b : Block) (c : FaultCode) : b.finish (.error c) = b.raise c := rfl
@[simp] theorem Block.finish_ok (b b' : Block) : b.finish (.ok b') = { b' with status := statusOk } := rfl

end Sys2Proof.Machine
end

