-- ==== Sys2Proof/Laws/Memory.lean ====
section
/-!
SUPPORT. What the cell memory does: a read after a write, and that a write keeps the canonical form.
-/

namespace Sys2Proof.Machine

@[simp] theorem Memory.read?_nil {w : Nat} (k : Nat) : Memory.read? ([] : Memory w) k = none := rfl

/-- Reading after a write gives the value at the written index and leaves every other index alone. -/
theorem Memory.read?_write {w : Nat} (m : Memory w) (k j : Nat) (v : BitVec w) :
    Memory.read? (Memory.write m k v) j = if k = j then some v else Memory.read? m j := by
  induction m with
  | nil => simp [Memory.write, Memory.read?]
  | cons c rest ih =>
    obtain ⟨a, u⟩ := c
    simp only [Memory.write]
    split
    · simp only [Memory.read?]
    · split
      · next h => subst h; simp only [Memory.read?]; split <;> rfl
      · next h => simp only [Memory.read?, ih]; split_ifs <;> first | rfl | omega

/-- An entry of a written memory is the new one or an old one. -/
theorem Memory.mem_write {w : Nat} {m : Memory w} {k : Nat} {v : BitVec w} {c : Nat × BitVec w}
    (h : c ∈ Memory.write m k v) : c = (k, v) ∨ c ∈ m := by
  induction m with
  | nil => simpa [Memory.write] using h
  | cons d rest ih =>
    obtain ⟨a, u⟩ := d
    simp only [Memory.write] at h
    split_ifs at h
    · simpa using h
    · rcases List.mem_cons.1 h with rfl | h
      · exact .inl rfl
      · exact .inr (List.mem_cons_of_mem _ h)
    · rcases List.mem_cons.1 h with rfl | h
      · exact .inr (List.mem_cons_self ..)
      · exact (ih h).imp id (List.mem_cons_of_mem _)

/-- A write keeps the canonical form. -/
theorem Memory.wf_write {w : Nat} {m : Memory w} (h : Memory.wf m) (k : Nat) (v : BitVec w) :
    Memory.wf (Memory.write m k v) := by
  induction m with
  | nil => simp [Memory.write]
  | cons c rest ih =>
    obtain ⟨a, u⟩ := c
    obtain ⟨hlt, hrest⟩ := List.pairwise_cons.1 h
    simp only [Memory.write]
    split_ifs with h1 h2
    · refine List.pairwise_cons.2 ⟨fun d hd => ?_, h⟩
      rcases List.mem_cons.1 hd with rfl | hd
      · exact h1
      · exact Nat.lt_trans h1 (hlt d hd)
    · subst h2; exact List.pairwise_cons.2 ⟨hlt, hrest⟩
    · refine List.pairwise_cons.2 ⟨fun d hd => ?_, ih hrest⟩
      rcases Memory.mem_write hd with rfl | hd
      · simp only; omega
      · exact hlt d hd

/-- A write below a bound keeps every index below it. -/
theorem Memory.bound_write {w N : Nat} {m : Memory w} (h : ∀ c ∈ m, c.1 < N) {k : Nat} (hk : k < N) (v : BitVec w) :
    ∀ c ∈ Memory.write m k v, c.1 < N := by
  intro c hc
  rcases Memory.mem_write hc with rfl | hc
  · exact hk
  · exact h c hc

/-- What an element reads as after consecutive character writes. -/
theorem read?_charsWrite (m : Memory 16) (i : Nat) (cs : List CharUnit) (j : Nat) :
    Memory.read? (charsWrite m i cs) j =
      if i ≤ j ∧ j < i + cs.length then cs[j - i]? else Memory.read? m j := by
  induction cs generalizing m i with
  | nil => simp only [charsWrite, List.length_nil]; rw [if_neg (by omega)]
  | cons c rest ih =>
    simp only [charsWrite, ih, Memory.read?_write, List.length_cons]
    by_cases h : i = j
    · subst h; simp
    · rw [if_neg h]
      by_cases h2 : i + 1 ≤ j ∧ j < i + 1 + rest.length
      · rw [if_pos h2, if_pos (by omega), show j - i = (j - (i + 1)) + 1 by omega, List.getElem?_cons_succ]
      · rw [if_neg h2, if_neg (by omega)]

/-- Character writes keep the canonical form. -/
theorem wf_charsWrite {m : Memory 16} (h : Memory.wf m) (i : Nat) (cs : List CharUnit) :
    Memory.wf (charsWrite m i cs) := by
  induction cs generalizing m i with
  | nil => exact h
  | cons c rest ih => exact ih (Memory.wf_write h i c) (i + 1)

/-- Character writes below a bound keep every index below it. -/
theorem bound_charsWrite {N : Nat} {m : Memory 16} (h : ∀ c ∈ m, c.1 < N) (i : Nat) (cs : List CharUnit)
    (hi : i + cs.length ≤ N) : ∀ c ∈ charsWrite m i cs, c.1 < N := by
  induction cs generalizing m i with
  | nil => exact h
  | cons c rest ih =>
    simp only [List.length_cons] at hi
    exact ih (Memory.bound_write h (by omega) c) (i + 1) (by omega)

end Sys2Proof.Machine
end

