-- ==== Sys2Proof/Laws/Frame.lean ====
section
/-!
SUPPORT. The frame by bits: what each bit reads as after every operation that writes the frame, and that the operations
keep the memory's canonical form and its bound.
-/

namespace Sys2Proof.Machine

/-- Setting one bit of an octet sets it and keeps the other seven. -/
theorem octetSetBit_getLsbD (o : Octet) {j i : Nat} (hj : j < 8) (hi : i < 8) (v : Bool) :
    (octetSetBit o j v).getLsbD i = if i = j then v else o.getLsbD i := by
  unfold octetSetBit
  cases v <;> simp only [Bool.false_eq_true, if_false, if_true]
  · rw [BitVec.getLsbD_and, BitVec.getLsbD_not, BitVec.getLsbD_shiftLeft, BitVec.getLsbD_one]
    split_ifs with h
    · subst h; simp [hi]
    · by_cases h2 : i < j <;> simp [hi, h2]; omega
  · rw [BitVec.getLsbD_or, BitVec.getLsbD_shiftLeft, BitVec.getLsbD_one]
    split_ifs with h
    · subst h; simp [hi]
    · by_cases h2 : i < j <;> simp [hi, h2]; omega

theorem frameOctet_write (e : Nat) (f : Memory 8) (k j : Nat) (o : Octet) :
    frameOctet e (Memory.write f k o) j = if k = j then o else frameOctet e f j := by
  simp only [frameOctet, Memory.read?_write]; split <;> rfl

/-- `F[i] <- v` changes bit `i` alone. -/
theorem frameBit_setBit (e : Nat) (f : Memory 8) (i a : Nat) (v : Bool) :
    frameBit e (frameSetBit e f i v) a = if a = i then v else frameBit e f a := by
  simp only [frameBit, frameSetBit, frameOctet_write]
  by_cases h : i / 8 = a / 8
  · rw [if_pos h, octetSetBit_getLsbD _ (by omega) (by omega)]
    by_cases h2 : a = i
    · subst h2; simp
    · rw [if_neg (by omega), if_neg h2, h]
  · rw [if_neg h, if_neg (by rintro rfl; exact h rfl)]

/-- Consecutive bit writes change exactly the bits of the written range. -/
theorem frameBit_writeBits (e : Nat) (f : Memory 8) (pos : Nat) (bs : List Bool) (a : Nat) :
    frameBit e (frameWriteBits e f pos bs) a =
      if pos ≤ a ∧ a < pos + bs.length then bs.getD (a - pos) false else frameBit e f a := by
  induction bs generalizing f pos with
  | nil => simp only [frameWriteBits, List.length_nil]; rw [if_neg (by omega)]
  | cons v rest ih =>
    simp only [frameWriteBits, ih, frameBit_setBit, List.length_cons]
    by_cases h : a = pos
    · subst h; simp
    · rw [if_neg h]
      by_cases h2 : pos + 1 ≤ a ∧ a < pos + 1 + rest.length
      · rw [if_pos h2, if_pos (by omega), show a - pos = (a - (pos + 1)) + 1 by omega]; simp
      · rw [if_neg h2, if_neg (by omega)]

theorem frameBit_writeBits_in {e : Nat} {f : Memory 8} {pos : Nat} {bs : List Bool} {j : Nat} (h : j < bs.length) :
    frameBit e (frameWriteBits e f pos bs) (pos + j) = bs.getD j false := by
  rw [frameBit_writeBits, if_pos (by omega), Nat.add_sub_cancel_left]

theorem frameBit_writeBits_out {e : Nat} {f : Memory 8} {pos : Nat} {bs : List Bool} {a : Nat}
    (h : a < pos ∨ pos + bs.length ≤ a) : frameBit e (frameWriteBits e f pos bs) a = frameBit e f a := by
  rw [frameBit_writeBits, if_neg (by omega)]

theorem frameWriteBits_append (e : Nat) (f : Memory 8) (pos : Nat) (xs ys : List Bool) :
    frameWriteBits e f pos (xs ++ ys) = frameWriteBits e (frameWriteBits e f pos xs) (pos + xs.length) ys := by
  induction xs generalizing f pos with
  | nil => rfl
  | cons x xs ih => simp only [List.cons_append, frameWriteBits, ih, List.length_cons]; congr 1; omega

/-- Bit writes keep the canonical form. -/
theorem wf_writeBits {e : Nat} {f : Memory 8} (h : Memory.wf f) (pos : Nat) (bs : List Bool) :
    Memory.wf (frameWriteBits e f pos bs) := by
  induction bs generalizing f pos with
  | nil => exact h
  | cons v rest ih => exact ih (Memory.wf_write h _ _) (pos + 1)

/-- Bit writes below bit `8 * N` keep every octet index below `N`. -/
theorem bound_writeBits {e N : Nat} {f : Memory 8} (h : ∀ c ∈ f, c.1 < N) (pos : Nat) (bs : List Bool)
    (hp : pos + bs.length ≤ 8 * N) : ∀ c ∈ frameWriteBits e f pos bs, c.1 < N := by
  induction bs generalizing f pos with
  | nil => exact h
  | cons v rest ih =>
    simp only [List.length_cons] at hp
    exact ih (Memory.bound_write h (by omega) _) (pos + 1) (by omega)

/-! ## Fields -/

@[simp] theorem fieldBits_length (n v : Nat) : (fieldBits n v).length = n := by simp [fieldBits]

theorem fieldBits_getD {n v j : Nat} (h : j < n) : (fieldBits n v).getD j false = v.testBit (n - 1 - j) := by
  simp [fieldBits, List.getD_eq_getElem?_getD, h]

/-- `MemWrite` stores the value's bits, most significant first. -/
theorem frameBit_memWrite_in {e : Nat} {f : Memory 8} {pos n v j : Nat} (h : j < n) :
    frameBit e (memWrite e f pos n v) (pos + j) = v.testBit (n - 1 - j) := by
  rw [memWrite, frameBit_writeBits_in (by simpa using h), fieldBits_getD h]

/-- `MemWrite` changes no bit outside the field. -/
theorem frameBit_memWrite_out {e : Nat} {f : Memory 8} {pos n v a : Nat} (h : a < pos ∨ pos + n ≤ a) :
    frameBit e (memWrite e f pos n v) a = frameBit e f a :=
  frameBit_writeBits_out (by simpa using h)

/-- Consecutive fields are the consecutive bits of their values. -/
theorem memWriteFields_eq (e : Nat) (f : Memory 8) (pos : Nat) (fields : List (Nat × Nat)) :
    memWriteFields e f pos fields = frameWriteBits e f pos (fields.flatMap (fun x => fieldBits x.1 x.2)) := by
  induction fields generalizing f pos with
  | nil => rfl
  | cons x rest ih =>
    obtain ⟨n, v⟩ := x
    simp only [memWriteFields, ih, List.flatMap_cons, frameWriteBits_append, memWrite, fieldBits_length]

theorem flatMap_fieldBits_length (fields : List (Nat × Nat)) :
    (fields.flatMap (fun x => fieldBits x.1 x.2)).length = (fields.map Prod.fst).sum := by
  induction fields with
  | nil => rfl
  | cons x rest ih => simp [List.flatMap_cons, ih]

theorem frameBit_memWriteFields_out {e : Nat} {f : Memory 8} {pos : Nat} {fields : List (Nat × Nat)} {a : Nat}
    (h : a < pos ∨ pos + (fields.map Prod.fst).sum ≤ a) :
    frameBit e (memWriteFields e f pos fields) a = frameBit e f a := by
  rw [memWriteFields_eq]; exact frameBit_writeBits_out (by rwa [flatMap_fieldBits_length])

/-- A field in the middle of a list of fields stands at the sum of the widths before it. -/
theorem frameBit_memWriteFields_at {e : Nat} {f : Memory 8} {pos : Nat} (xs ys : List (Nat × Nat)) (n v : Nat) {j : Nat}
    (h : j < n) :
    frameBit e (memWriteFields e f pos (xs ++ (n, v) :: ys)) (pos + (xs.map Prod.fst).sum + j) =
      v.testBit (n - 1 - j) := by
  rw [memWriteFields_eq, List.flatMap_append, List.flatMap_cons, frameWriteBits_append, frameWriteBits_append,
    flatMap_fieldBits_length, frameBit_writeBits_out (by simp only [fieldBits_length]; omega),
    frameBit_writeBits_in (by simpa using h), fieldBits_getD h]

theorem bitsNat_append_singleton (bs : List Bool) (v : Bool) : bitsNat (bs ++ [v]) = 2 * bitsNat bs + v.toNat := by
  simp [bitsNat, List.foldl_append]

/-- The number of a list of bits is the sum of rule R11. -/
theorem bitsNat_map_range (g : Nat → Bool) (n : Nat) :
    bitsNat ((List.range n).map g) = ∑ j ∈ Finset.range n, (g j).toNat * 2 ^ (n - 1 - j) := by
  induction n with
  | zero => rfl
  | succ n ih =>
    rw [List.range_succ, List.map_append, List.map_singleton, bitsNat_append_singleton, ih, Finset.sum_range_succ,
      Finset.mul_sum]
    congr 1
    · refine Finset.sum_congr rfl fun j hj => ?_
      have hj := Finset.mem_range.1 hj
      rw [show n + 1 - 1 - j = (n - 1 - j) + 1 by omega, pow_succ]; ring
    · simp

theorem bitsNat_map_range_lt (g : Nat → Bool) (n : Nat) : bitsNat ((List.range n).map g) < 2 ^ n := by
  induction n with
  | zero => simp [bitsNat]
  | succ n ih =>
    rw [List.range_succ, List.map_append, List.map_singleton, bitsNat_append_singleton, pow_succ]
    have := Bool.toNat_le (g n); omega

/-- Bit `i` of the number of a list of bits is the list's bit counted from its end. -/
theorem bitsNat_map_range_testBit (g : Nat → Bool) (n i : Nat) :
    (bitsNat ((List.range n).map g)).testBit i = (decide (i < n) && g (n - 1 - i)) := by
  induction n generalizing i with
  | zero => simp [bitsNat]
  | succ n ih =>
    rw [List.range_succ, List.map_append, List.map_singleton, bitsNat_append_singleton]
    cases i with
    | zero => cases h : g n <;> simp [h, Nat.testBit_zero, Nat.add_mod]
    | succ i =>
      rw [Nat.testBit_succ, show (2 * bitsNat ((List.range n).map g) + (g n).toNat) / 2 = bitsNat ((List.range n).map g) by
        have := Bool.toNat_le (g n); omega, ih]
      have : n - 1 - i = n + 1 - 1 - (i + 1) := by omega
      rw [this]; simp

/-- `MemRead` is the sum of rule R11. -/
theorem memRead_eq (b : Block) (pos n : Nat) : memRead b.epoch b.frame pos n = fieldValue b pos n :=
  bitsNat_map_range _ n

theorem readAt_eq (b : Block) (off n : Nat) : b.readAt off n = fieldValue b (b.cursor.toNat + off) n :=
  memRead_eq b _ n

theorem fieldValue_eq_bitsNat (b : Block) (pos n : Nat) :
    fieldValue b pos n = bitsNat ((List.range n).map (fun j => b.bit (pos + j))) := (bitsNat_map_range _ n).symm

theorem fieldValue_lt (b : Block) (pos n : Nat) : fieldValue b pos n < 2 ^ n := by
  rw [fieldValue_eq_bitsNat]; exact bitsNat_map_range_lt _ n

theorem fieldValue_testBit (b : Block) (pos n i : Nat) :
    (fieldValue b pos n).testBit i = (decide (i < n) && b.bit (pos + (n - 1 - i))) := by
  rw [fieldValue_eq_bitsNat]; exact bitsNat_map_range_testBit _ n i

/-- A frame that holds a value that fits its field reads as that value. -/
theorem fieldValue_of_holds {b : Block} {pos n v : Nat} (h : holdsField b pos n v) (hv : v < 2 ^ n) :
    fieldValue b pos n = v := by
  apply Nat.eq_of_testBit_eq
  intro i
  rw [fieldValue_testBit]
  by_cases hi : i < n
  · rw [h _ (by omega), show n - 1 - (n - 1 - i) = i by omega]; simp [hi]
  · rw [Nat.testBit_lt_two_pow (Nat.lt_of_lt_of_le hv (Nat.pow_le_pow_right (by omega) (by omega)))]; simp [hi]

/-- A field holds the number that it reads as. -/
theorem holds_fieldValue (b : Block) (pos n : Nat) : holdsField b pos n (fieldValue b pos n) := by
  intro j hj
  rw [fieldValue_testBit, show n - 1 - (n - 1 - j) = j by omega]
  simp; omega

theorem fieldValue_congr {b b' : Block} {pos n : Nat} (h : ∀ j < n, b.bit (pos + j) = b'.bit (pos + j)) :
    fieldValue b pos n = fieldValue b' pos n :=
  Finset.sum_congr rfl fun j hj => by rw [h j (Finset.mem_range.1 hj)]

/-- Two adjacent fields are the halves of the wider one. -/
theorem fieldValue_add (b : Block) (pos m n : Nat) :
    fieldValue b pos (m + n) = 2 ^ n * fieldValue b pos m + fieldValue b (pos + m) n := by
  unfold fieldValue
  rw [Finset.sum_range_add, Finset.mul_sum]
  congr 1
  · refine Finset.sum_congr rfl fun j hj => ?_
    have hj := Finset.mem_range.1 hj
    rw [show m + n - 1 - j = (m - 1 - j) + n by omega, pow_add]; ring
  · refine Finset.sum_congr rfl fun j hj => ?_
    rw [show m + n - 1 - (m + j) = n - 1 - j by omega, Nat.add_assoc]

/-! ## `Normalise` -/

theorem octetReversed_at {m t : Nat} (h : t < 8) : octetReversed (8 * m + t) = 8 * m + (7 - t) := by
  unfold octetReversed; omega

theorem octetReversed_invol (i : Nat) : octetReversed (octetReversed i) = i := by
  unfold octetReversed; omega

theorem octetReversed_lt {i n : Nat} (h : i < 8 * n) : octetReversed i < 8 * n := by
  unfold octetReversed; omega

/-- Every bit of the frame after `Normalise(base, len)`. -/
theorem frameBit_normalise (e : Nat) (f : Memory 8) (base len a : Nat) :
    frameBit e (normalise e f base len) a =
      if base ≤ a ∧ a < base + 8 * (len / 8) then frameBit e f (base + octetReversed (a - base))
      else frameBit e f a := by
  rw [normalise, frameBit_writeBits]
  simp only [List.length_map, List.length_range]
  split_ifs with h
  · rw [List.getD_eq_getElem?_getD, List.getElem?_map, List.getElem?_range (by omega)]; rfl
  · rfl

end Sys2Proof.Machine
end

