-- ==== Sys2Proof/Laws/Text.lean ====
section
/-!
SUPPORT. The 7-bit alphabet's two directions, and the packed and the wide text by their bits.
-/

namespace Sys2Proof.Machine

/-! ## The alphabet -/

/-- `dec7` is `ALPHA7`. -/
theorem alphabetMaps_dec7 (p : Params) (code : Code7) : alphabetMaps p code (dec7 p code) := by
  have h : code.toNat < p.alpha7.toList.length := by
    rw [Vector.length_toList]; exact code.isLt
  simp only [alphabetMaps, dec7, List.getD_eq_getElem?_getD, List.getElem?_eq_getElem h, Option.getD_some]

theorem alphabetMaps_iff (p : Params) (code : Code7) (ch : CharUnit) : alphabetMaps p code ch ↔ dec7 p code = ch := by
  have h := alphabetMaps_dec7 p code
  unfold alphabetMaps at h ⊢
  rw [h]; exact Option.some_inj

/-- `enc7` answers a code of the character. -/
theorem enc7_maps {p : Params} {ch : CharUnit} {code : Code7} (h : enc7 p ch = some code) : alphabetMaps p code ch := by
  unfold enc7 at h
  obtain ⟨k, hk, rfl⟩ := Option.map_eq_some_iff.1 h
  obtain ⟨hlt, heq, -⟩ := List.findIdx?_eq_some_iff_getElem.1 hk
  have h128 : k < 128 := by simpa using hlt
  rw [alphabetMaps, BitVec.toNat_ofNat, Nat.mod_eq_of_lt (by omega), List.getElem?_eq_getElem hlt]
  simpa using heq

/-- `enc7` is undefined exactly when no code maps to the character. -/
theorem enc7_eq_none_iff (p : Params) (ch : CharUnit) : enc7 p ch = none ↔ ∀ code, ¬ alphabetMaps p code ch := by
  constructor
  · intro h code hm
    unfold enc7 at h
    rw [Option.map_eq_none_iff, List.findIdx?_eq_none_iff] at h
    unfold alphabetMaps at hm
    simpa using h ch (List.mem_of_getElem? hm)
  · intro h
    by_contra hne
    obtain ⟨code, hc⟩ := Option.ne_none_iff_exists'.1 hne
    exact h code (enc7_maps hc)

/-- With an injective alphabet, `enc7` answers the one code of the character. -/
theorem enc7_of_maps {p : Params} (hn : p.alpha7.toList.Nodup) {ch : CharUnit} {code : Code7}
    (h : alphabetMaps p code ch) : enc7 p ch = some code := by
  cases h' : enc7 p ch with
  | none => exact absurd h ((enc7_eq_none_iff p ch).1 h' code)
  | some c =>
    have hc := enc7_maps h'
    unfold alphabetMaps at h hc
    have hlt : code.toNat < p.alpha7.toList.length := by simp [code.isLt]
    have := (List.getElem?_inj hlt hn).1 (h.trans hc.symm)
    rw [BitVec.eq_of_toNat_eq this]

/-- A list that encodes has one code per character, each mapping to its character. -/
theorem enc7All_some {p : Params} {chs : List CharUnit} {codes : List Code7} (h : enc7All p chs = some codes) :
    codes.length = chs.length ∧
      ∀ (k : Nat) (ch : CharUnit), chs[k]? = some ch → ∃ code, codes[k]? = some code ∧ alphabetMaps p code ch := by
  induction chs generalizing codes with
  | nil => simp only [enc7All, Option.some.injEq] at h; subst h; simp
  | cons c rest ih =>
    simp only [enc7All] at h
    split at h
    · next x xs hx hxs =>
      simp only [Option.some.injEq] at h; subst h
      obtain ⟨hl, hk⟩ := ih hxs
      refine ⟨by simp [hl], fun k ch hch => ?_⟩
      cases k with
      | zero => simp at hch; subst hch; exact ⟨x, by simp, enc7_maps hx⟩
      | succ k => simp only [List.getElem?_cons_succ] at hch ⊢; exact hk k ch hch
    · cases h

/-- A list does not encode exactly when one of its characters has no code. -/
theorem enc7All_eq_none_iff (p : Params) (chs : List CharUnit) :
    enc7All p chs = none ↔ ∃ ch ∈ chs, ∀ code, ¬ alphabetMaps p code ch := by
  induction chs with
  | nil => simp [enc7All]
  | cons c rest ih =>
    rw [List.exists_mem_cons_iff, ← ih, ← enc7_eq_none_iff, enc7All]
    cases enc7 p c <;> cases enc7All p rest <;> simp

/-! ## The packed text -/

theorem spareCount_eq (sz : Nat) : spareCount sz = sz % 8 := by unfold spareCount; omega

theorem text_aligned (sz : Nat) : (7 * sz + spareCount sz) % 8 = 0 := by rw [spareCount_eq]; omega

@[simp] theorem codeBits_length (code : Code7) : (codeBits code).length = 7 := by simp [codeBits]

theorem codeBits_getD (code : Code7) {j : Nat} (h : j < 7) : (codeBits code).getD j false = code.getLsbD j := by
  simp [codeBits, List.getD_eq_getElem?_getD, h]

theorem flatMap_length_const {α : Type} (l : List α) (g : α → List Bool) {n : Nat} (hg : ∀ x, (g x).length = n) :
    (l.flatMap g).length = n * l.length := by
  induction l with
  | nil => simp
  | cons x rest ih => simp only [List.flatMap_cons, List.length_append, hg, ih, List.length_cons]; ring

/-- In a list of equally long groups, element `j` of group `k` stands at `n * k + j`. -/
theorem flatMap_getD_const {α : Type} {l : List α} {g : α → List Bool} {n : Nat} (hg : ∀ x, (g x).length = n)
    {k j : Nat} {x : α} (hk : l[k]? = some x) (hj : j < n) : (l.flatMap g).getD (n * k + j) false = (g x).getD j false := by
  induction l generalizing k with
  | nil => simp at hk
  | cons y rest ih =>
    rw [List.flatMap_cons]
    cases k with
    | zero =>
      simp only [List.getElem?_cons_zero, Option.some.injEq] at hk; subst hk
      rw [Nat.mul_zero, Nat.zero_add]
      simp only [List.getD_eq_getElem?_getD]
      rw [List.getElem?_append_left (by rw [hg]; exact hj)]
    | succ k =>
      rw [List.getElem?_cons_succ] at hk
      rw [← ih hk]
      simp only [List.getD_eq_getElem?_getD]
      rw [List.getElem?_append_right (by rw [hg, Nat.mul_succ]; omega), hg]
      congr 2
      rw [Nat.mul_succ]; omega

theorem textStream_length (codes : List Code7) :
    (textStream codes).length = 7 * codes.length + spareCount codes.length := by
  simp [textStream, flatMap_length_const codes codeBits codeBits_length]

theorem textStream_code {codes : List Code7} {k j : Nat} {code : Code7} (hk : codes[k]? = some code) (hj : j < 7) :
    (textStream codes).getD (7 * k + j) false = code.getLsbD j := by
  have hlt : k < codes.length := (List.getElem?_eq_some_iff.1 hk).1
  unfold textStream
  rw [List.getD_append _ _ _ _ (by rw [flatMap_length_const _ _ codeBits_length]; omega),
    flatMap_getD_const codeBits_length hk hj, codeBits_getD code hj]

theorem textStream_spare (codes : List Code7) (j : Nat) :
    (textStream codes).getD (7 * codes.length + j) false = false := by
  unfold textStream
  simp only [List.getD_eq_getElem?_getD]
  rw [List.getElem?_append_right (by rw [flatMap_length_const _ _ codeBits_length]; omega), List.getElem?_replicate]
  split <;> rfl

@[simp] theorem pack7_length (codes : List Code7) :
    (pack7 codes).length = 7 * codes.length + spareCount codes.length := by simp [pack7]

theorem pack7_getD {codes : List Code7} {i : Nat} (h : i < 7 * codes.length + spareCount codes.length) :
    (pack7 codes).getD i false = (textStream codes).getD (octetReversed i) false := by
  simp only [pack7, List.getD_eq_getElem?_getD, List.getElem?_map, List.getElem?_range h, Option.map_some,
    Option.getD_some]

/-- Stream bit `i` of the packed text, in a frame that holds it at `base`. -/
theorem frameBit_pack7 (e : Nat) (f : Memory 8) (base : Nat) (codes : List Code7) {i : Nat}
    (h : i < 7 * codes.length + spareCount codes.length) :
    frameBit e (frameWriteBits e f base (pack7 codes)) (base + octetReversed i) = (textStream codes).getD i false := by
  have hal := text_aligned codes.length
  have hr : octetReversed i < 7 * codes.length + spareCount codes.length := by
    have := octetReversed_lt (i := i) (n := (7 * codes.length + spareCount codes.length) / 8) (by omega)
    omega
  rw [frameBit_writeBits_in (by simpa using hr), pack7_getD hr, octetReversed_invol]

/-- `Unpack7` reads seven stream bits, the first of them bit 0. -/
theorem unpackCode_getLsbD (e : Nat) (f : Memory 8) (base k : Nat) {j : Nat} (hj : j < 7) :
    (unpackCode e f base k).getLsbD j = frameBit e f (base + octetReversed (7 * k + j)) := by
  rw [unpackCode, BitVec.getLsbD_ofNat, bitsNat_map_range_testBit]
  simp only [hj, decide_true, Bool.true_and]
  congr 3; omega

@[simp] theorem wideText_length (chs : List CharUnit) : (wideText chs).length = 16 * chs.length :=
  flatMap_length_const chs _ (fun _ => by simp)

/-- Character `k` of a wide text is the 16-bit field at `16 * k`. -/
theorem wideText_getD {chs : List CharUnit} {k j : Nat} {ch : CharUnit} (hk : chs[k]? = some ch) (hj : j < 16) :
    (wideText chs).getD (16 * k + j) false = ch.toNat.testBit (16 - 1 - j) := by
  rw [wideText, flatMap_getD_const (fun _ => by simp) hk hj, fieldBits_getD hj]

@[simp] theorem chars_length (b : Block) (sz : Nat) : (b.chars sz).length = sz := by simp [Block.chars]

theorem chars_getElem? (b : Block) {sz k : Nat} (h : k < sz) : (b.chars sz)[k]? = some (b.char k) := by
  simp [Block.chars, h]

/-- The header octet as a number. -/
theorem nnHeader_toNat (alpha : BitVec 3) (ci : BitVec 1) {spare : Nat} (h : spare < 8) :
    (nnHeader alpha ci spare).toNat = 128 + 16 * alpha.toNat + 8 * ci.toNat + spare := by
  have ha := alpha.isLt
  have hc := ci.isLt
  simp only [nnHeader, BitVec.toNat_append, BitVec.toNat_ofNat, Nat.mod_eq_of_lt (show spare < 2 ^ 3 by omega)]
  rw [← Nat.shiftLeft_add_eq_or_of_lt (by omega), ← Nat.shiftLeft_add_eq_or_of_lt (by omega),
    ← Nat.shiftLeft_add_eq_or_of_lt (by omega)]
  simp only [Nat.shiftLeft_eq]
  omega

end Sys2Proof.Machine
end

