-- ==== Sys2Proof/Laws/Commands.lean ====
section
/-!
SUPPORT. Every command as one Operation between the checks and the end of a command, and once what a successful Operation
can do.
-/

namespace Sys2Proof.Machine

/-- The Operation of a command. -/
def operationOf : Instr → Operation
  | .nop => opNop
  | .rdf w => opRdf w
  | .wrf w => opWrf w
  | .seg => opSeg
  | .l8m => opL8m
  | .svcRd => opSvcRd
  | .rejWr => opRejWr
  | .sresRd => opSresRd
  | .randWr => opRandWr
  | .randRd => opRandRd
  | .randExp => opRandExp
  | .nnWr => opNnWr
  | .nnRd => opNnRd
  | .a7Enc => opA7Enc
  | .a7Dec => opA7Dec
  | .tztWr => opTztWr
  | .tztRd => opTztRd
  | .bcdEnc => opBcdEnc
  | .bcdDec => opBcdDec
  | .smEnc => opSmEnc
  | .smDec => opSmDec

/-- `exec` runs a command's Operation and ends the command. -/
theorem exec_eq (i : Instr) (s : State) : exec i s = .next (s.command (operationOf i)) := by cases i <;> rfl

theorem command_of_error {s : State} {op : Operation} {c : FaultCode} (h : op s.params s.block = .error c) :
    s.command op = s.raise c := by simp [State.command, State.raise, h]

theorem command_of_ok {s : State} {op : Operation} {b : Block} (h : op s.params s.block = .ok b) :
    s.command op = { s with block := { b with status := 0#8 } } := by simp [State.command, h, statusOk]

/-- A command that ends with code 0 has succeeded. -/
theorem ok_of_status {i : Instr} {s t : State} (h : exec i s = .next t) (hs : t.block.status = 0#8) :
    ∃ b, operationOf i s.params s.block = .ok b ∧ t = { s with block := { b with status := 0#8 } } := by
  rw [exec_eq] at h
  cases hop : operationOf i s.params s.block with
  | error c =>
    rw [command_of_error hop] at h
    injection h with h; subst h
    cases c <;> simp [statusOf, faultNumber] at hs
  | ok b =>
    rw [command_of_ok hop] at h
    injection h with h
    exact ⟨b, rfl, h.symm⟩

/-- The bound of rule R50. -/
theorem overrun_eq_true {b : Block} {n : Nat} : b.overrun n = true ↔ b.frameLen.toNat < b.cursor.toNat + n := by
  simp [Block.overrun]

theorem overrun_eq_false {b : Block} {n : Nat} : b.overrun n = false ↔ b.cursor.toNat + n ≤ b.frameLen.toNat := by
  simp [Block.overrun]

/-- Within the frame the cursor's sum does not wrap (rule R20). -/
theorem cursor_sum_toNat {b : Block} {n : Nat} (h : b.cursor.toNat + n ≤ b.frameLen.toNat) :
    (BitVec.ofNat 16 (b.cursor.toNat + n)).toNat = b.cursor.toNat + n := by
  have := b.frameLen.isLt
  rw [BitVec.toNat_ofNat, Nat.mod_eq_of_lt (by omega)]

/-- What `NN.WR` writes when its bound holds. -/
theorem nnEmit_ok {b b' : Block} {spare : Nat} {text : List Bool} (h : nnEmit b spare text = .ok b') :
    b.cursor.toNat + (8 + text.length) ≤ b.frameLen.toNat ∧
      b' = { b with
        frame := frameWriteBits b.epoch b.frame b.cursor.toNat
          (fieldBits 8 (nnHeader b.nnAlpha b.nnCi spare).toNat ++ text)
        nnSpare := BitVec.ofNat 3 spare
        cursor := BitVec.ofNat 16 (b.cursor.toNat + (8 + text.length)) } := by
  unfold nnEmit at h
  cases ho : b.overrun (8 + text.length) with
  | true => simp [ho] at h
  | false =>
    rw [ho] at h
    refine ⟨overrun_eq_false.1 ho, ?_⟩
    simp only [Bool.false_eq_true, if_false, Except.ok.injEq] at h
    rw [← h, frameWriteBits_append, fieldBits_length]; rfl

/-- The three ends of `NN.RD` once the number of characters is known. -/
theorem nnAccept_ok {p : Params} {b b' : Block} {hdr : Octet} {n : Nat} {chs : List CharUnit}
    (h : nnAccept p b hdr n chs = .ok b') :
    chs.length ≤ p.nnMaxChars ∧
      b' = { b with
        nnExt := hdr.extractLsb' 7 1, nnAlpha := hdr.extractLsb' 4 3, nnCi := hdr.extractLsb' 3 1
        nnSpare := hdr.extractLsb' 0 3, nnLen := BitVec.ofNat 8 chs.length
        charbuf := charsWrite b.charbuf 0 chs, cursor := BitVec.ofNat 16 (b.cursor.toNat + 8 * n) } := by
  unfold nnAccept at h
  split at h
  · cases h
  · injection h with h; exact ⟨by omega, h.symm⟩

/-- A successful `NN.WR`: its selector, its length, and the text it writes. -/
theorem opNnWr_ok {p : Params} {b b' : Block} (h : opNnWr p b = .ok b') :
    b.nnLen.toNat ≤ p.nnMaxChars ∧
      ((b.nnAlpha = alphaSelDefault ∧ ∃ codes, enc7All p (b.chars b.nnLen.toNat) = some codes ∧
          nnEmit b (spareCount b.nnLen.toNat) (pack7 codes) = .ok b') ∨
        (b.nnAlpha ≠ alphaSelDefault ∧ b.nnAlpha = p.alphaSelWide ∧
          nnEmit b 0 (wideText (b.chars b.nnLen.toNat)) = .ok b')) := by
  simp only [opNnWr] at h
  split_ifs at h with h1 h2 h3
  · refine ⟨by omega, .inl ⟨h3, ?_⟩⟩
    split at h
    · cases h
    · next codes hc => exact ⟨codes, hc, h⟩
  · refine ⟨by omega, .inr ⟨h3, ?_, h⟩⟩
    by_contra h4; exact h1 ⟨h3, h4⟩

/-- A successful `NN.RD`: the bound, and the characters it accepts. -/
theorem opNnRd_ok {p : Params} {b b' : Block} (h : opNnRd p b = .ok b') :
    b.nnOctets.toNat ≠ 0 ∧ b.cursor.toNat + 8 * b.nnOctets.toNat ≤ b.frameLen.toNat ∧
      ∃ (hdr : Octet) (chs : List CharUnit), nnAccept p b hdr b.nnOctets.toNat chs = .ok b' := by
  simp only [opNnRd] at h
  split_ifs at h with h1 h2 h3 h4 h5 h6
  · exact ⟨h1, overrun_eq_false.1 (by simpa using h2), _, _, h⟩
  · exact ⟨h1, overrun_eq_false.1 (by simpa using h2), _, _, h⟩

end Sys2Proof.Machine
end

