-- ==== Sys2Proof/Laws/Operations.lean ====
section
/-!
SUPPORT. What every successful Operation keeps, what it can do to the two buffers, that no Operation reads the flags, and
what the shared read and write at `CURSOR` do.
-/

namespace Sys2Proof.Machine

/-- The code of a fault is one of 1 to 9. -/
theorem faultNumber_range (c : FaultCode) : 1 ≤ faultNumber c ∧ faultNumber c ≤ 9 := by cases c <;> decide

/-- What no Operation writes. -/
theorem operation_keeps {i : Instr} {p : Params} {b b' : Block} (h : operationOf i p b = .ok b') :
    b'.status = b.status ∧ b'.flts = b.flts ∧ b'.epoch = b.epoch ∧ b'.frameLen = b.frameLen ∧ b'.segLen = b.segLen ∧
      b'.rejCause = b.rejCause ∧ b'.nnOctets = b.nnOctets ∧ b'.tk = b.tk ∧ b'.call = b.call := by
  cases i
  case nnWr =>
    obtain ⟨_, ⟨_, c, _, h⟩ | ⟨_, _, h⟩⟩ := opNnWr_ok h <;> (obtain ⟨_, rfl⟩ := nnEmit_ok h; simp)
  case nnRd => obtain ⟨_, _, hdr, cs, h⟩ := opNnRd_ok h; obtain ⟨_, rfl⟩ := nnAccept_ok h; simp
  case a7Enc => simp only [operationOf, opA7Enc] at h; split at h <;> cases h; simp
  all_goals
    simp only [operationOf, opNop, opRdf, opWrf, opSeg, opL8m, opSvcRd, opRejWr, opSresRd, opRandWr, opRandRd,
      opRandExp, opA7Dec, opTztWr, opTztRd, opBcdEnc, opBcdDec, opSmEnc, opSmDec] at h
    (try split_ifs at h) <;> (injection h with h; subst h; simp [Block.advance, Block.writeFields])

/-- What an Operation does to `CHARBUF`: nothing, or characters from element 0 on, within its capacity. -/
theorem operation_charbuf {i : Instr} {p : Params} {b b' : Block} (h : operationOf i p b = .ok b') :
    b'.charbuf = b.charbuf ∨ ∃ cs, b'.charbuf = charsWrite b.charbuf 0 cs ∧ cs.length ≤ p.nnMaxChars := by
  cases i
  case nnWr =>
    obtain ⟨_, ⟨_, c, _, h⟩ | ⟨_, _, h⟩⟩ := opNnWr_ok h <;> (obtain ⟨_, rfl⟩ := nnEmit_ok h; exact .inl rfl)
  case nnRd =>
    obtain ⟨_, _, hdr, cs, h⟩ := opNnRd_ok h; obtain ⟨h1, rfl⟩ := nnAccept_ok h; exact .inr ⟨cs, rfl, h1⟩
  case a7Enc => simp only [operationOf, opA7Enc] at h; split at h <;> cases h; simp
  all_goals
    simp only [operationOf, opNop, opRdf, opWrf, opSeg, opL8m, opSvcRd, opRejWr, opSresRd, opRandWr, opRandRd,
      opRandExp, opA7Dec, opTztWr, opTztRd, opBcdEnc, opBcdDec, opSmEnc, opSmDec] at h
    (try split_ifs at h) <;> (injection h with h; subst h; simp [Block.advance, Block.writeFields])

/-! ## At `CURSOR` -/

/-- `Block.writeFields` stores each field at the sum of the widths before it. -/
theorem holdsField_writeFields {b : Block} {status : BitVec 8} {fields xs ys : List (Nat × Nat)} {n v k : Nat}
    (h : fields = xs ++ (n, v) :: ys) (hk : (xs.map Prod.fst).sum = k) :
    holdsField { b.writeFields fields with status := status } (b.cursor.toNat + k) n v := by
  subst hk; subst h
  exact fun j hj => frameBit_memWriteFields_at xs ys n v hj

/-- `Block.writeFields` keeps every frame bit outside its fields. -/
theorem frameKept_writeFields {b : Block} {status : BitVec 8} {fields : List (Nat × Nat)} {n : Nat}
    (hn : (fields.map Prod.fst).sum = n) :
    frameKeptOutside b { b.writeFields fields with status := status } b.cursor.toNat n := by
  subst hn; exact fun a ha => frameBit_memWriteFields_out ha

/-- `Block.writeFields` within the frame advances `CURSOR` by the sum of the widths. -/
theorem cursor_writeFields {b : Block} {fields : List (Nat × Nat)} {n : Nat} (hn : (fields.map Prod.fst).sum = n)
    (h : b.cursor.toNat + n ≤ b.frameLen.toNat) : (b.writeFields fields).cursor.toNat = b.cursor.toNat + n := by
  subst hn; exact cursor_sum_toNat h

/-- A field read at `CURSOR` fits a register at least as wide as the field. -/
theorem toNat_ofNat_readAt {b : Block} {n w : Nat} (h : n ≤ w) (off : Nat) :
    (BitVec.ofNat w (b.readAt off n)).toNat = fieldValue b (b.cursor.toNat + off) n := by
  rw [readAt_eq, BitVec.toNat_ofNat, Nat.mod_eq_of_lt]
  exact Nat.lt_of_lt_of_le (fieldValue_lt _ _ _) (Nat.pow_le_pow_right (by omega) h)

/-- The widths of the 15 wire fields of a time element make 56 bits. -/
theorem tztFields_sum (layout : TzLayout) (c : CalBank) (q : Int) : ((tztFields layout c q).map Prod.fst).sum = 56 := by
  cases layout <;> simp [tztFields, digitFields, zoneFields]

/-- What an Operation does to the frame: nothing, or consecutive bits below `FRAME_LEN`, and then its command is one of
those that write the frame. -/
theorem operation_frame {i : Instr} {p : Params} {b b' : Block} (h : operationOf i p b = .ok b') :
    b'.frame = b.frame ∨ ∃ pos bs, b'.frame = frameWriteBits b.epoch b.frame pos bs ∧
      pos + bs.length ≤ b.frameLen.toNat ∧ writesFrame i := by
  have fields : ∀ fs : List (Nat × Nat), ¬ b.overrun (fs.map Prod.fst).sum = true → writesFrame i →
      (b.writeFields fs).frame = b.frame ∨ ∃ pos bs, (b.writeFields fs).frame = frameWriteBits b.epoch b.frame pos bs ∧
        pos + bs.length ≤ b.frameLen.toNat ∧ writesFrame i := by
    intro fs ho hw
    refine .inr ⟨_, _, memWriteFields_eq _ _ _ _, ?_, hw⟩
    rw [flatMap_fieldBits_length]
    exact overrun_eq_false.1 (by simpa using ho)
  cases i
  case nnWr =>
    obtain ⟨_, ⟨_, c, _, h⟩ | ⟨_, _, h⟩⟩ := opNnWr_ok h <;>
      (obtain ⟨h1, rfl⟩ := nnEmit_ok h
       refine .inr ⟨_, _, rfl, ?_, by simp [writesFrame]⟩
       simp only [List.length_append, fieldBits_length]; omega)
  case nnRd => obtain ⟨_, _, hdr, cs, h⟩ := opNnRd_ok h; obtain ⟨_, rfl⟩ := nnAccept_ok h; exact .inl rfl
  case a7Enc => simp only [operationOf, opA7Enc] at h; split at h <;> cases h; exact .inl rfl
  case wrf w =>
    simp only [operationOf, opWrf] at h; split_ifs at h with h1 h2 h3; injection h with h; subst h
    exact fields _ (by simpa using h3) (by simp [writesFrame])
  case rejWr =>
    simp only [operationOf, opRejWr] at h; split_ifs at h with h1 h3; injection h with h; subst h
    exact fields _ (by simpa using h3) (by simp [writesFrame])
  case randWr =>
    simp only [operationOf, opRandWr] at h; split_ifs at h with h3; injection h with h; subst h
    exact fields _ (by simpa using h3) (by simp [writesFrame])
  case tztWr =>
    simp only [operationOf, opTztWr] at h; split_ifs at h with h1 h2 h3; injection h with h; subst h
    exact fields _ (by rw [tztFields_sum]; exact h3) (by simp [writesFrame])
  case l8m =>
    simp only [operationOf, opL8m] at h; split_ifs at h with h1; injection h with h; subst h
    refine .inr ⟨_, _, rfl, ?_, by simp [writesFrame]⟩
    simp only [List.length_map, List.length_range]; omega
  all_goals
    simp only [operationOf, opNop, opRdf, opSeg, opSvcRd, opSresRd, opRandRd, opRandExp, opA7Dec, opTztRd, opBcdEnc,
      opBcdDec, opSmEnc, opSmDec] at h
    (try split_ifs at h) <;> (injection h with h; subst h; exact .inl rfl)

end Sys2Proof.Machine
end

