-- ==== Sys2Proof/Laws/PerInstr.lean ====
section
/-!
SUPPORT. A statement of every command as syntax: its word carries its opcode in bits 15:8 and its argument in bits 7:0
(rules R61, R63).
-/

namespace Sys2Proof.Laws.EncodingFields

/-- The two fields of the word of a command are its opcode and its argument. -/
def Statement (i : Instr) : Prop := opcField (encode i) = opcOf i ∧ argField (encode i) = argOf i

/-- The two bytes of a 16-bit word made of two bytes. -/
theorem fields_append (a b : BitVec 8) : opcField (a ++ b) = a ∧ argField (a ++ b) = b := by
  have ha := a.isLt
  have hb := b.isLt
  have h : (a ++ b).toNat = 256 * a.toNat + b.toNat := by
    rw [BitVec.toNat_append, ← Nat.shiftLeft_add_eq_or_of_lt hb, Nat.shiftLeft_eq]; omega
  constructor <;> apply BitVec.eq_of_toNat_eq <;>
    simp only [opcField, argField, BitVec.extractLsb'_toNat, h, Nat.shiftRight_eq_div_pow] <;> omega

theorem nop : Statement .nop := fields_append _ _
theorem rdf (w : BitVec 8) : Statement (.rdf w) := fields_append _ _
theorem wrf (w : BitVec 8) : Statement (.wrf w) := fields_append _ _
theorem seg : Statement .seg := fields_append _ _
theorem l8m : Statement .l8m := fields_append _ _
theorem svcRd : Statement .svcRd := fields_append _ _
theorem rejWr : Statement .rejWr := fields_append _ _
theorem sresRd : Statement .sresRd := fields_append _ _
theorem randWr : Statement .randWr := fields_append _ _
theorem randRd : Statement .randRd := fields_append _ _
theorem randExp : Statement .randExp := fields_append _ _
theorem nnWr : Statement .nnWr := fields_append _ _
theorem nnRd : Statement .nnRd := fields_append _ _
theorem a7Enc : Statement .a7Enc := fields_append _ _
theorem a7Dec : Statement .a7Dec := fields_append _ _
theorem tztWr : Statement .tztWr := fields_append _ _
theorem tztRd : Statement .tztRd := fields_append _ _
theorem bcdEnc : Statement .bcdEnc := fields_append _ _
theorem bcdDec : Statement .bcdDec := fields_append _ _
theorem smEnc : Statement .smEnc := fields_append _ _
theorem smDec : Statement .smDec := fields_append _ _

end Sys2Proof.Laws.EncodingFields
end

