-- ==== Sys2Proof/Tests/Slice0.lean ====
section
/-!
SUPPORT. The smoke test of `Instr.wf`, command words written out from 30_encoding.md, one or two steps of every command
with the results of 95_test_vectors.md (each test names its vector), and for every statement with hypotheses a state and
operands that meet them. `on f` is the reset state with its block changed by `f`; a test reads only fields that are
numerals there.
-/

open Sys2Proof Sys2Proof.Machine

namespace Sys2Proof.Tests

/-- The reset state with its block changed. -/
def on (f : Block → Block) : State := { State.reset with block := f State.reset.block }

/-- A frame of `len` bits that begins with these octets. -/
def framed (os : List (BitVec 8)) (len : BitVec 16) (b : Block) : Block :=
  { b with frame := (List.range os.length).zip os, frameLen := len }

/-- These characters in `CHARBUF`, and their number in `NN_LEN`, under alphabet selector `alpha`. -/
def named (alpha : BitVec 3) (ci : BitVec 1) (cs : List (BitVec 16)) (b : Block) : Block :=
  { b with nnAlpha := alpha, nnCi := ci, nnLen := BitVec.ofNat 8 cs.length, charbuf := (List.range cs.length).zip cs }

/-- The block after one command. -/
def after (i : Instr) (s : State) : Block :=
  match exec i s with
  | .next t => t.block
  | .fault _ => s.block
  | .refused _ => s.block

/-- The block after one step. -/
def stepped (s : State) : Block :=
  match step s with
  | .next t => t.block
  | .fault _ => s.block
  | .refused _ => s.block

/-- The first `n` octets of the frame. -/
def octets (n : Nat) (b : Block) : List (BitVec 8) := (List.range n).map b.octet

/-! ## Well-formedness (rule R62) -/

theorem test_wf_rdf_zero : (Instr.rdf 0#8).wf = false := by decide
theorem test_wf_rdf_wide : (Instr.rdf 65#8).wf = false := by decide
theorem test_wf_wrf_zero : (Instr.wrf 0#8).wf = false := by decide
theorem test_wf_wrf_wide : (Instr.wrf 65#8).wf = false := by decide
theorem test_wf_bounds : (Instr.rdf 1#8).wf = true ∧ (Instr.wrf 64#8).wf = true := by decide

/-! ## Decoding: every row of 30_encoding.md rule R63, its `OPC` byte then its `ARG` byte, bit by bit -/

theorem test_decode_frame_primitives :
    decode 0b0000000000000000#16 = .ok .nop ∧ decode 0b0000000100000100#16 = .ok (.rdf 4#8) ∧
      decode 0b0000001001000000#16 = .ok (.wrf 64#8) ∧ decode 0b0000001100000000#16 = .ok .seg ∧
      decode 0b0000010000000000#16 = .ok .l8m := by decide

theorem test_decode_fixed_fields :
    decode 0b0001000000000000#16 = .ok .svcRd ∧ decode 0b0001000100000000#16 = .ok .rejWr ∧
      decode 0b0001001000000000#16 = .ok .sresRd := by decide

theorem test_decode_composite_integer :
    decode 0b0010000000000000#16 = .ok .randWr ∧ decode 0b0010000100000000#16 = .ok .randRd ∧
      decode 0b0010001000000000#16 = .ok .randExp := by decide

theorem test_decode_alphabet_codec :
    decode 0b0011000000000000#16 = .ok .nnWr ∧ decode 0b0011000100000000#16 = .ok .nnRd ∧
      decode 0b0011001000000000#16 = .ok .a7Enc ∧ decode 0b0011001100000000#16 = .ok .a7Dec := by decide

theorem test_decode_time_codec :
    decode 0b0100000000000000#16 = .ok .tztWr ∧ decode 0b0100000100000000#16 = .ok .tztRd ∧
      decode 0b0100001000000000#16 = .ok .bcdEnc ∧ decode 0b0100001100000000#16 = .ok .bcdDec ∧
      decode 0b0100010000000000#16 = .ok .smEnc ∧ decode 0b0100010100000000#16 = .ok .smDec := by decide

/-- V30-2 and V30-1: the boundary words of format W and the illegal words. -/
theorem test_decode_boundaries :
    decode 0x0101#16 = .ok (.rdf 1#8) ∧ decode 0x0140#16 = .ok (.rdf 64#8) ∧ decode 0x0201#16 = .ok (.wrf 1#8) ∧
      decode 0x0100#16 = .error .widthOutOfRange ∧ decode 0x0141#16 = .error .widthOutOfRange ∧
      decode 0x0200#16 = .error .widthOutOfRange ∧ decode 0x02FF#16 = .error .widthOutOfRange ∧
      decode 0x0001#16 = .error .argumentNotZero ∧ decode 0x3001#16 = .error .argumentNotZero := by decide

theorem test_decode_unassigned :
    [0x0500#16, 0x1300#16, 0x2300#16, 0x3400#16, 0x4600#16, 0xFFFF#16].all
      (fun c => match decode c with | .error .unassignedOpcode => true | _ => false) = true := by decide

theorem test_table_word : decodeTableWord 16 0x4500 = some .smDec ∧ decodeTableWord 16 0x0100 = none := by decide

/-! ## The host -/

/-- 10_state.md rule R36: a write keeps the low bits, `FRAME_LEN` is clipped, `SEG_BASE` is read-only, an unimplemented
index reads 0. -/
theorem test_host_write :
    (stepped { State.reset with pending := [.write 0x39 0xFF] }).aCode = 0x7F#7 ∧
      (stepped { State.reset with pending := [.write 0x04 70000] }).frameLen = 2048#16 ∧
      (stepped { State.reset with pending := [.write 0x05 3] }).segBase = 0#16 := by decide

theorem test_host_read_unimplemented :
    (match step { State.reset with pending := [.read 0x07] } with | .next t => t.lastRead | _ => none) = some 0 := by
  decide

/-- V30-1: an illegal word written to `CMD`. -/
theorem test_illegal_word :
    (stepped { State.reset with pending := [.write 0 0x0141] }).status = 1#8 ∧
      (stepped { State.reset with pending := [.write 0 0x0141] }).flts = 2#16 := by decide

theorem test_fetch_word :
    (stepped ((on fun b => { b with status := 2#8, flts := 4#16 }).withFetchWord 16 0x0000)).status = 0#8 ∧
      (stepped ((on fun b => { b with status := 2#8, flts := 4#16 }).withFetchWord 16 0x0000)).flts = 4#16 := by decide

/-! ## One step of every command -/

/-- V40-1. -/
theorem test_nop : (after .nop (on fun b => { b with status := 2#8, flts := 4#16 })).status = 0#8 := by decide

/-- V40-2, third row: a 12-bit read at bit 4. -/
theorem test_rdf :
    (after (.rdf 12#8) (on fun b => { framed [0x84, 0xD4] 16 b with cursor := 4#16 })).fval = 0x4D4#64 := by decide

/-- V40-2, fourth row: a read past `FRAME_LEN`. -/
theorem test_rdf_truncated :
    (after (.rdf 1#8) (on fun b => { framed [0x84, 0xD4] 16 b with cursor := 16#16 })).flts = 4#16 := by decide

/-- V40-4, first row. -/
theorem test_wrf :
    octets 2 (after (.wrf 5#8) (on fun b => { framed [0, 0] 16 b with cursor := 3#16, fval := 0x1F#64 })) =
      [0x1F#8, 0x00#8] := by decide

/-- V40-4, fourth row: the value is checked before the frame. -/
theorem test_wrf_too_wide :
    (after (.wrf 5#8) (on fun b => { framed [0, 0] 16 b with cursor := 14#16, fval := 0x100#64 })).status = 4#8 := by
  decide

/-- V40-5, first row. -/
theorem test_seg :
    (after .seg (on fun b => { framed [] 40 b with cursor := 8#16, segLen := 32#16 })).segBase = 8#16 := by decide

/-- V40-5, fourth row. -/
theorem test_seg_bad_length :
    (after .seg (on fun b => { framed [] 40 b with cursor := 8#16, segLen := 33#16 })).status = 9#8 := by decide

/-- V40-5, second row: the octet before the window is kept. -/
theorem test_l8m :
    octets 5 (after .l8m (on fun b => { framed [0x84, 0x2B, 0x4F, 0x39, 0x70] 40 b with
      segBase := 8#16, segLen := 32#16 })) = [0x84#8, 0xD4#8, 0xF2#8, 0x9C#8, 0x0E#8] := by decide

/-- V40-5, last row. -/
theorem test_l8m_bad_length :
    (after .l8m (on fun b => { framed [] 40 b with segBase := 8#16, segLen := 33#16 })).status = 9#8 := by decide

/-- V43-1: a known code. -/
theorem test_svcRd :
    (after .svcRd (on fun b => framed [0x4B] 8 b)).svcCode = 4#4 ∧
      (after .svcRd (on fun b => framed [0x4B] 8 b)).svcKnown = 1#1 := by decide

/-- 43_fixed_fields.md rule R121: octet `3F`, an unknown code. -/
theorem test_svcRd_unknown :
    (after .svcRd (on fun b => framed [0x3F] 8 b)).svcCode = 3#4 ∧
      (after .svcRd (on fun b => framed [0x3F] 8 b)).svcKnown = 0#1 := by decide

/-- 43_fixed_fields.md rule R122, the example. -/
theorem test_rejWr :
    octets 2 (after .rejWr (on fun b => { framed [0, 0] 16 b with cursor := 8#16, rejCause := 0x11#32 })) =
      [0x00#8, 0x11#8] := by decide

/-- 43_fixed_fields.md rule R122, the example's fault. -/
theorem test_rejWr_too_wide :
    (after .rejWr (on fun b => { framed [0, 0] 16 b with rejCause := 0x111#32 })).status = 4#8 := by decide

/-- 43_fixed_fields.md rule R123, the example. -/
theorem test_sresRd :
    (after .sresRd (on fun b => framed [0x12, 0x34, 0x56, 0x78] 32 b)).sres = 0x12345678#32 := by decide

/-- 43_fixed_fields.md rule R123, the example's fault. -/
theorem test_sresRd_truncated :
    (after .sresRd (on fun b => { framed [0x12, 0x34, 0x56, 0x78] 31 b with sres := 7#32 })).sres = 7#32 := by decide

/-- 44_composite_integer.md rule R128, the example. -/
theorem test_randWr :
    octets 16 (after .randWr (on fun b => { framed (List.replicate 16 0) 128 b with
      randHi := 0x0102030405060708#64, randLo := 0x090A0B0C0D0E0F10#64 })) =
      [1, 2, 3, 4, 5, 6, 7, 8, 9, 10, 11, 12, 13, 14, 15, 16] := by decide +kernel

/-- 44_composite_integer.md rule R129, the example. -/
theorem test_randRd :
    (after .randRd (on fun b => framed [1, 2, 3, 4, 5, 6, 7, 8, 9, 10, 11, 12, 13, 14, 15, 16] 128 b)).randLo =
      0x090A0B0C0D0E0F10#64 := by decide +kernel

/-- S7, the document's test vector. -/
theorem test_randExp :
    (after .randExp (on fun b => { b with randHi := 0x0102030405060708#64, randLo := 0x090A0B0C0D0E0F10#64 })).randExp =
      #v[1, 2, 3, 4, 5, 6, 7, 8, 9, 10, 11, 12, 13, 14, 15, 16] := by decide

/-- V41-1, the document's "Test". -/
theorem test_nnWr_default :
    octets 5 (after .nnWr (on fun b => named 0 0 [0x54, 0x65, 0x73, 0x74] (framed (List.replicate 5 0) 40 b))) =
      [0x84#8, 0xD4#8, 0xF2#8, 0x9C#8, 0x0E#8] := by decide +kernel

/-- V41-14. -/
theorem test_nnWr_wide :
    octets 7 (after .nnWr (on fun b => named 1 0 [0x54, 0xE9, 0x4E2D] (framed (List.replicate 7 0) 56 b))) =
      [0x90#8, 0x00#8, 0x54#8, 0x00#8, 0xE9#8, 0x4E#8, 0x2D#8] := by decide +kernel

/-- V41-19, first row. -/
theorem test_nnRd_default :
    (after .nnRd (on fun b => { framed [0x84, 0xD4, 0xF2, 0x9C, 0x0E] 40 b with nnOctets := 5#8 })).charbuf =
      [(0, 0x54#16), (1, 0x65#16), (2, 0x73#16), (3, 0x74#16)] := by decide +kernel

/-- V41-20, fourth row. -/
theorem test_nnRd_bad_length :
    (after .nnRd (on fun b => { framed [0x83, 0xD4, 0xF2, 0x9C, 0x0E] 40 b with nnOctets := 5#8 })).status = 9#8 := by
  decide

/-- V41-0: `@` is code 0. -/
theorem test_a7Enc : (after .a7Enc (on fun b => { b with aChar := 0x40#16 })).aCode = 0x00#7 := by decide

/-- V41-0: `[` has no code. -/
theorem test_a7Enc_unmappable : (after .a7Enc (on fun b => { b with aChar := 0x5B#16 })).flts = 0x80#16 := by decide

/-- V41-0. -/
theorem test_a7Dec : (after .a7Dec (on fun b => { b with aCode := 0x11#7 })).aChar = 0x5F#16 := by decide

/-- A bank of calendar fields. -/
def bank (y : BitVec 16) (mo d h mi s : BitVec 8) : CalBank := ⟨y, mo, d, h, mi, s⟩

/-- V42-7, row 2: the local bank and a negative offset. -/
theorem test_tztWr :
    octets 7 (after .tztWr (on fun b => { framed (List.replicate 7 0) 56 b with
      call := bank 2024 2 29 5 34 56, tzOffSec := BitVec.ofInt 32 (-25200) })) =
      [0x42#8, 0x20#8, 0x92#8, 0x50#8, 0x43#8, 0x65#8, 0x8A#8] := by decide +kernel

/-- V42-8, second row: the field comes first. -/
theorem test_tztWr_field_first :
    (after .tztWr (on fun b => { framed [] 10 b with
      call := bank 2024 2 29 5 34 100, tzOffSec := 72000#32 })).status = 5#8 := by decide

/-- V42-10, row 5: nibbles above 9 and the largest negative zone. -/
theorem test_tztRd :
    (after .tztRd (on fun b => framed [0xFF, 0xA0, 0x0A, 0x00, 0x3F, 0xF3, 0xFF] 56 b)).calu = bank 2165 10 100 0 153 45 ∧
      (after .tztRd (on fun b => framed [0xFF, 0xA0, 0x0A, 0x00, 0x3F, 0xF3, 0xFF] 56 b)).tzOffSec =
        BitVec.ofInt 32 (-76500) := by decide +kernel

/-- V42-1. -/
theorem test_bcdEnc : (after .bcdEnc (on fun b => { b with bcdVal := 24#8 })).bcdOctet = 0x42#8 := by decide

/-- V42-1. -/
theorem test_bcdEnc_fault : (after .bcdEnc (on fun b => { b with bcdVal := 100#8 })).status = 5#8 := by decide

/-- V42-2. -/
theorem test_bcdDec : (after .bcdDec (on fun b => { b with bcdOctet := 0xA0#8 })).bcdVal = 10#8 := by decide

/-- V42-4, both layouts. -/
theorem test_smEnc :
    (after .smEnc (on fun b => { b with tzOffSec := BitVec.ofInt 32 (-25200) })).smOctet = 0x8A#8 ∧
      (after .smEnc { on fun b => { b with tzOffSec := BitVec.ofInt 32 (-25200) } with
        params := { documentedParams with tzLayout := .s1t3u4 } }).smOctet = 0xA8#8 := by decide

/-- V42-4: the most negative offset. -/
theorem test_smEnc_too_wide :
    (after .smEnc (on fun b => { b with tzOffSec := 0x80000000#32 })).flts = 0x10#16 := by decide

/-- V42-5. -/
theorem test_smDec :
    (after .smDec (on fun b => { b with smOctet := 0x8A#8 })).tzQ = BitVec.ofInt 8 (-28) ∧
      (after .smDec (on fun b => { b with smOctet := 0x8A#8 })).tzOffSec = BitVec.ofInt 32 (-25200) := by decide

/-! ## Witnesses: for every statement with hypotheses, a state and operands that meet them, clause by clause -/

/-- The command answers a next state with this code in `STATUS`. -/
def ends (i : Instr) (s : State) (code : BitVec 8) : Prop := ∃ t, exec i s = .next t ∧ t.block.status = code

/-- `n` zero octets, all of them in the frame. -/
def zeros (n : Nat) (b : Block) : Block := framed (List.replicate n 0) (BitVec.ofNat 16 (8 * n)) b

/-- The reset state with the next action of the host planned. -/
def planned (e : Event) : State := { State.reset with pending := [e] }

/-- The documented parameters meet every premise on parameters. -/
theorem test_witness_params : documentedParams.wf ∧ documentedParams.alpha7.toList.Nodup := by decide +kernel

theorem test_witness_DecodeUndoesEncode : Instr.nop.wf = true ∧ (Instr.rdf 1#8).wf = true ∧ (Instr.wrf 64#8).wf = true := by
  decide

theorem test_witness_IllegalWordIsDecidedFromTheWordAlone :
    [(5, 0), (0x0F, 0), (0x13, 0), (0x1F, 0), (0x23, 0), (0x2F, 0), (0x34, 0), (0x3F, 0), (0x46, 0), (0xFF, 255),
      (0, 1), (0x45, 255), (1, 0), (1, 65), (2, 0), (2, 255)].all (fun x => decide (x.1 < 256 ∧ x.2 < 256 ∧
        ((5 ≤ x.1 ∧ x.1 ≤ 0x0F) ∨ (0x13 ≤ x.1 ∧ x.1 ≤ 0x1F) ∨ (0x23 ≤ x.1 ∧ x.1 ≤ 0x2F) ∨
          (0x34 ≤ x.1 ∧ x.1 ≤ 0x3F) ∨ 0x46 ≤ x.1 ∨ (x.1 ≠ 1 ∧ x.1 ≠ 2 ∧ x.2 ≠ 0) ∨
          ((x.1 = 1 ∨ x.1 = 2) ∧ (x.2 = 0 ∨ 64 < x.2))))) = true := by decide

/-- A legal word, an illegal one, and a value whose low 16 bits are the legal one. -/
theorem test_witness_StepRunsTheDecodedCommand :
    (planned (.write 0 0x0140)).pending = .write 0 0x0140 :: [] ∧
      decode (BitVec.ofNat 16 0x0140) = .ok (.rdf 64#8) ∧ decode (BitVec.ofNat 16 0x0141) = .error .widthOutOfRange ∧
      decode (BitVec.ofNat 16 0x10140) = .ok (.rdf 64#8) := by decide

theorem test_witness_IdleStepChangesNothing : State.reset.pending = [] := rfl

/-- Legal parameters and a planned read; what each clause asks of the index, at the last element of each file. -/
theorem test_witness_HostReadReturnsTheRegister :
    State.reset.params.wf ∧ (planned (.read 0x54)).pending = .read 0x54 :: [] ∧ 0x2F = 0x20 + (15 : Fin 16).val ∧
      92 < documentedParams.nnMaxChars ∧ 255 < documentedParams.frameCap / 8 ∧
      Reg.ofIndex documentedParams 0x2F = some (.randExp 15) ∧ Reg.ofIndex documentedParams 0x54 = some .bcdOctet ∧
      Reg.ofIndex documentedParams (0x100 + 92) = some (.charbuf 92) ∧
      Reg.ofIndex documentedParams (0x100 + 93) = none ∧
      Reg.ofIndex documentedParams (0x1000 + 255) = some (.frame 255) ∧
      Reg.ofIndex documentedParams (0x1000 + 256) = none := by decide +kernel

theorem test_witness_HostWriteStoresTheLowBits :
    State.reset.params.wf ∧ (planned (.write 0x01 5)).pending = .write 0x01 5 :: [] ∧
      Reg.ofIndex documentedParams 0x01 = some .status ∧ Reg.hostWritable .status = false ∧
      Reg.ofIndex documentedParams 0x03 = some .cursor ∧ Reg.hostWritable .cursor = true ∧
      Reg.ofIndex documentedParams 0x04 = some .frameLen ∧ Reg.ofIndex documentedParams 0x55 = none ∧
      92 < documentedParams.nnMaxChars ∧ 255 < documentedParams.frameCap / 8 := by decide +kernel

theorem test_witness_EveryRegisterHasOneIndex :
    documentedParams.wf ∧ 92 < documentedParams.nnMaxChars ∧ 255 < documentedParams.frameCap / 8 := by decide +kernel

theorem test_witness_ResetClearsTheControlRegisters : (planned .reset).pending = .reset :: [] := rfl

theorem test_witness_CommandDependsOnParametersAndBlockAlone :
    (planned .reset).params = State.reset.params ∧ (planned .reset).block = State.reset.block := ⟨rfl, rfl⟩

/-- A legal state after a fault, with an octet and a character listed, and the step that follows. -/
theorem test_witness_StepKeepsStateLegal :
    (on fun b => { named 0 0 [0x54] (zeros 1 b) with status := 2#8, flts := 4#16 }).wf ∧
      ∃ t, step (on fun b => { named 0 0 [0x54] (zeros 1 b) with status := 2#8, flts := 4#16 }) = .next t :=
  ⟨by decide +kernel, _, rfl⟩

theorem test_witness_FaultBitsAreSticky :
    (10 : Nat) ≤ 10 ∧ (∃ t, exec .svcRd State.reset = .next t ∧ t.block.status ≠ 0#8) ∧
      (∃ t, step (planned (.write 0 0)) = .next t ∧ (planned (.write 0 0)).pending.head? ≠ some .reset) ∧
      (on fun b => { b with flts := 4#16 }).block.flts.getLsbD 2 = true :=
  ⟨by decide, ⟨_, rfl, by decide⟩, ⟨_, rfl, by decide⟩, by decide⟩

theorem test_witness_OnlyListedCommandsWriteARegister :
    (∃ t, exec .nop State.reset = .next t) ∧ Instr.nop ≠ .seg ∧ (∀ w, Instr.nop ≠ .rdf w) ∧ Instr.nop ≠ .nnRd :=
  ⟨⟨_, rfl⟩, by decide, by simp, by decide⟩

theorem test_witness_OnlyListedCommandsWriteTheFrame :
    ¬ writesFrame .nop ∧ writesFrame (.wrf 8#8) ∧ (∃ t, exec (.wrf 8#8) (on (zeros 1)) = .next t) ∧
      (on (zeros 1)).block.frameLen.toNat ≤ 8 :=
  ⟨by simp [writesFrame], by simp [writesFrame], ⟨_, rfl⟩, by decide⟩

theorem test_witness_CursorAdvancesByTheBitsMoved :
    bitsMoved (.rdf 8#8) (on (zeros 1)) = some 8 ∧ ends (.rdf 8#8) (on (zeros 1)) 0 ∧
      bitsMoved .nop State.reset = none ∧ ends .svcRd State.reset 2 :=
  ⟨rfl, ⟨_, rfl, by decide⟩, rfl, ⟨_, rfl, by decide⟩⟩

theorem test_witness_FaultDoesNotChangeTheNextCommand :
    ∃ t, exec .svcRd State.reset = .next t ∧ t.block.status ≠ 0#8 := ⟨_, rfl, by decide⟩

/-- The first reset and a later one, a state with `FRAME_LEN = 0` that no reset leaves, and the widths at their bounds. -/
theorem test_witness_AfterResetNoFrameBitMoves :
    State.reset.block = Block.afterReset 0 ∧
      (∃ t, step (planned .reset) = .next t ∧ t.block = Block.afterReset 1) ∧
      ((on fun b => { b with cursor := 8#16, nnOctets := 0#8 }).block.frameLen = 0#16 ∧
        bitsMoved .nnRd (on fun b => { b with cursor := 8#16, nnOctets := 0#8 }) = some 0 ∧ Instr.nnRd.wf = true) ∧
      (1 ≤ (1#8).toNat ∧ (64#8).toNat ≤ 64 ∧ bitsMoved .tztWr State.reset = some 56 ∧ Instr.tztWr.wf = true) :=
  ⟨rfl, ⟨_, rfl, rfl⟩, ⟨rfl, rfl, rfl⟩, by decide⟩

theorem test_witness_NopOnlyClearsStatus : (1#8 : BitVec 8) ≠ 0#8 ∧ (255#8 : BitVec 8) ≠ 0#8 := by decide

/-- Every reading command at a frame that ends at its last bit, and at one that is a bit shorter. -/
theorem test_witness_reads :
    [(Instr.rdf 1#8, 1), (.rdf 64#8, 64), (.svcRd, 4), (.sresRd, 32), (.randRd, 128), (.tztRd, 56)].all (fun x =>
      (after x.1 (on (framed (List.replicate 16 0) (BitVec.ofNat 16 x.2)))).status == 0#8 &&
        (after x.1 (on (framed (List.replicate 16 0) (BitVec.ofNat 16 (x.2 - 1))))).status == 2#8) = true := by
  decide +kernel

/-- Operands of every writing command of a fixed width. -/
def operands (b : Block) : Block :=
  { b with fval := 1#64, rejCause := 255#32, randHi := 1#64, randLo := 2#64, call := bank 2024 1 1 0 0 99,
           tzOffSec := 71999#32 }

/-- Every writing command at a frame that ends at its last bit, and at one that is a bit shorter. -/
theorem test_witness_writes :
    [(Instr.wrf 1#8, 1), (.wrf 64#8, 64), (.rejWr, 8), (.randWr, 128), (.tztWr, 56)].all (fun x =>
      (after x.1 (on fun b => operands (framed (List.replicate 16 0) (BitVec.ofNat 16 x.2) b))).status == 0#8 &&
        (after x.1 (on fun b => operands (framed (List.replicate 16 0) (BitVec.ofNat 16 (x.2 - 1)) b))).status == 3#8) =
      true := by decide +kernel

theorem test_witness_widths :
    ends (.rdf 0#8) State.reset 1 ∧ ends (.rdf 65#8) State.reset 1 ∧ ends (.wrf 0#8) State.reset 1 ∧
      ends (.wrf 255#8) State.reset 1 :=
  ⟨⟨_, rfl, by decide⟩, ⟨_, rfl, by decide⟩, ⟨_, rfl, by decide⟩, ⟨_, rfl, by decide⟩⟩

/-- The largest operand that fits, and the smallest that does not. -/
theorem test_witness_operand_bounds :
    ends (.wrf 8#8) (on fun b => { zeros 1 b with fval := 255#64 }) 0 ∧
      ends (.wrf 8#8) (on fun b => { zeros 1 b with fval := 256#64 }) 4 ∧
      ends .rejWr (on fun b => { zeros 1 b with rejCause := 256#32 }) 4 ∧
      ends .bcdEnc (on fun b => { b with bcdVal := 99#8 }) 0 ∧ ends .bcdEnc (on fun b => { b with bcdVal := 100#8 }) 5 ∧
      ends .smEnc (on fun b => { b with tzOffSec := 71999#32 }) 0 ∧
      ends .smEnc (on fun b => { b with tzOffSec := 72000#32 }) 4 ∧
      ends .tztWr (on fun b => { operands (zeros 7 b) with call := bank 2024 100 1 0 0 0 }) 5 ∧
      ends .tztWr (on fun b => { operands (zeros 7 b) with tzOffSec := 72000#32 }) 4 :=
  ⟨⟨_, rfl, by decide⟩, ⟨_, rfl, by decide⟩, ⟨_, rfl, by decide⟩, ⟨_, rfl, by decide⟩, ⟨_, rfl, by decide⟩,
    ⟨_, rfl, by decide⟩, ⟨_, rfl, by decide⟩, ⟨_, rfl, by decide⟩, ⟨_, rfl, by decide⟩⟩

/-- A window that ends at `FRAME_LEN`, and one that passes it. -/
theorem test_witness_windows :
    ends .seg (on fun b => { zeros 1 b with segLen := 8#16 }) 0 ∧ ends .seg (on fun b => { zeros 1 b with segLen := 9#16 }) 9 ∧
      ends .l8m (on fun b => { zeros 1 b with segLen := 8#16 }) 0 ∧
      ends .l8m (on fun b => { zeros 1 b with segLen := 9#16 }) 9 ∧
      (0 < (8#16).toNat / 8 ∧ 7 < 8) :=
  ⟨⟨_, rfl, by decide⟩, ⟨_, rfl, by decide⟩, ⟨_, rfl, by decide⟩, ⟨_, rfl, by decide⟩, by decide⟩

theorem test_witness_RandRdReadsHighThenLow : ends .randWr (on fun b => operands (zeros 16 b)) 0 :=
  ⟨_, rfl, by decide +kernel⟩

theorem test_witness_RandExpExportsBigEndian :
    (7 : Fin 16).val < 8 ∧ 8 ≤ (8 : Fin 16).val ∧ ends .randWr (on fun b => operands (zeros 16 b)) 0 :=
  ⟨by decide, by decide, _, rfl, by decide +kernel⟩

theorem test_witness_A7EncFindsTheCode :
    (∀ code, ¬ alphabetMaps State.reset.params code 0x5B#16) ∧ alphabetMaps State.reset.params 0x7F#7 0xE0#16 ∧
      State.reset.params.alpha7.toList.Nodup :=
  ⟨(enc7_eq_none_iff _ _).1 (by decide +kernel), rfl, by decide +kernel⟩

theorem test_witness_A7DecLooksUpTheCharacter :
    State.reset.params.alpha7.toList.Nodup ∧ ends .a7Enc (on fun b => { b with aChar := 0x54#16 }) 0 :=
  ⟨by decide +kernel, _, rfl, by decide +kernel⟩

/-- What the five clauses of `NnWrEncodesANetworkName` ask of a state, in its own names. -/
def nnWrCase (s : State) (reserved tooLong unmappable : Prop) (len : Nat) : Prop :=
  (reserved ↔ s.block.nnAlpha ≠ 0#3 ∧ s.block.nnAlpha ≠ s.params.alphaSelWide) ∧
    (tooLong ↔ s.params.nnMaxChars < s.block.nnLen.toNat) ∧
    (unmappable ↔ s.block.nnAlpha = 0#3 ∧
      ∃ k < s.block.nnLen.toNat, ∀ code, ¬ alphabetMaps s.params code (s.block.char k)) ∧
    len = 8 + (if s.block.nnAlpha = 0#3 then
      7 * s.block.nnLen.toNat + (if s.block.nnAlpha = 0#3 then (8 - 7 * s.block.nnLen.toNat % 8) % 8 else 0)
      else 16 * s.block.nnLen.toNat)

theorem test_witness_NnWr_reserved : nnWrCase (on (named 2 0 [])) True False False 8 :=
  ⟨by decide, by decide, by simp [on, named], by decide⟩

theorem test_witness_NnWr_tooLong :
    nnWrCase (on fun b => { named 1 0 [] b with nnLen := 94#8 }) False True False 1512 :=
  ⟨by decide, by decide, by simp [on, named], by decide⟩

theorem test_witness_NnWr_unmappable : nnWrCase (on (named 0 0 [0x5B])) False False True 16 :=
  ⟨by decide, by decide, ⟨fun _ => ⟨rfl, 0, by decide, (enc7_eq_none_iff _ _).1 (by decide +kernel)⟩, fun _ => trivial⟩,
    by decide⟩

/-- The default alphabet, at a frame one bit too short and at one that fits exactly. -/
theorem test_witness_NnWr_default :
    (nnWrCase (on fun b => named 0 0 [0x54] (framed [0, 0] 15 b)) False False False 16 ∧
      (on fun b => named 0 0 [0x54] (framed [0, 0] 15 b)).block.frameLen.toNat < 16) ∧
    nnWrCase (on fun b => named 0 0 [0x54] (framed [0, 0] 16 b)) False False False 16 ∧
      16 ≤ (on fun b => named 0 0 [0x54] (framed [0, 0] 16 b)).block.frameLen.toNat := by
  have hm : ∀ f : Block → Block, (∀ b, (f b).nnLen = 1#8) → (on f).block.char 0 = 0x54#16 →
      (False ↔ (on f).block.nnAlpha = 0#3 ∧
        ∃ k < (on f).block.nnLen.toNat, ∀ code, ¬ alphabetMaps (on f).params code ((on f).block.char k)) := by
    refine fun f hl hc => ⟨False.elim, fun ⟨_, k, hk, h⟩ => ?_⟩
    rw [show (on f).block.nnLen = 1#8 from hl _] at hk
    obtain rfl : k = 0 := Nat.lt_one_iff.1 hk
    exact h 0x54#7 (by rw [hc]; rfl)
  exact ⟨⟨⟨by decide, by decide, hm _ (fun _ => rfl) (by decide), by decide⟩, by decide⟩,
    ⟨by decide, by decide, hm _ (fun _ => rfl) (by decide), by decide⟩, by decide⟩

theorem test_witness_NnWr_wide :
    nnWrCase (on fun b => named 1 0 [0x54] (zeros 3 b)) False False False 24 ∧
      24 ≤ (on fun b => named 1 0 [0x54] (zeros 3 b)).block.frameLen.toNat :=
  ⟨⟨by decide, by decide, by simp [on, named], by decide⟩, by decide⟩

/-- The ends of `NN.RD`, clause by clause: no header octet, a short frame, a reserved selector, a text that holds no
whole number of characters (in each alphabet, and a spare count above the text), too many characters, and the two
successes. The header is the frame's first octet. -/
theorem test_witness_NnRd :
    ends .nnRd (on fun b => { b with nnOctets := 0#8 }) 9 ∧
      ends .nnRd (on fun b => { framed [0x80] 7 b with nnOctets := 1#8 }) 2 ∧
      ends .nnRd (on fun b => { framed [0xA0] 8 b with nnOctets := 1#8 }) 8 ∧
      ends .nnRd (on fun b => { framed [0x82, 0x41] 16 b with nnOctets := 2#8 }) 9 ∧
      ends .nnRd (on fun b => { framed [0x84] 8 b with nnOctets := 1#8 }) 9 ∧
      ends .nnRd (on fun b => { framed [0x90, 0x41] 16 b with nnOctets := 2#8 }) 9 ∧
      ends .nnRd { on fun b => { framed [0x81, 0x41] 16 b with nnOctets := 2#8 } with
        params := { documentedParams with nnMaxChars := 0 } } 6 ∧
      ends .nnRd (on fun b => { framed [0x81, 0x41] 16 b with nnOctets := 2#8 }) 0 ∧
      ends .nnRd (on fun b => { framed [0x98, 0x00, 0x41] 24 b with nnOctets := 3#8 }) 0 ∧
      (0x82#8).toNat = fieldValue (on (framed [0x82, 0x41] 16)).block 0 8 :=
  ⟨⟨_, rfl, by decide +kernel⟩, ⟨_, rfl, by decide +kernel⟩, ⟨_, rfl, by decide +kernel⟩, ⟨_, rfl, by decide +kernel⟩,
    ⟨_, rfl, by decide +kernel⟩, ⟨_, rfl, by decide +kernel⟩, ⟨_, rfl, by decide +kernel⟩, ⟨_, rfl, by decide +kernel⟩,
    ⟨_, rfl, by decide +kernel⟩, by rw [fieldValue_eq_bitsNat]; decide +kernel⟩

theorem test_witness_SmDecDecodesTheOctet :
    (0x08#8).toNat = zoneNumber State.reset.params.tzLayout 0 1 0 ∧
      ends .smEnc (on fun b => { b with tzOffSec := 900#32 }) 0 ∧ (900#32).toInt % 900 = 0 :=
  ⟨by decide, ⟨_, rfl, by decide⟩, by decide⟩

theorem test_witness_MemReadAndMemWriteMoveOneField : (255 : Nat) < 2 ^ 8 ∧ (0 : Nat) < 2 ^ 0 := by decide

theorem test_witness_NormaliseReversesEachOctet :
    ∃ b b' b'' : Block, b' = { b with frame := normalise b.epoch b.frame 4 17 } ∧
      b'' = { b with frame := normalise b.epoch b'.frame 4 17 } ∧ 1 < 17 / 8 ∧ 7 < 8 :=
  ⟨State.reset.block, _, _, rfl, rfl, by decide, by decide⟩

/-- The last stream bit of a code and the last spare bit, in a text of one code. -/
theorem test_witness_PackedTextUnpacks :
    [0x54#7][0]? = some 0x54#7 ∧ 8 * 0 + 6 = 7 * 0 + 6 ∧ 8 * 0 + 7 = 7 * 1 + 0 ∧ 0 < spareCount 1 := by decide

theorem test_witness_BcdRoundTrip : (99 : Nat) ≤ 99 ∧ ends .bcdEnc (on fun b => { b with bcdVal := 99#8 }) 0 :=
  ⟨by decide, _, rfl, by decide⟩

theorem test_witness_TimeElementRoundTrip :
    State.reset.params.wf ∧ ends .tztWr (on fun b => operands (zeros 7 b)) 0 ∧
      ends .tztWr (on fun b => { operands (zeros 7 b) with tk := 1#1, calu := bank 1999 12 31 23 59 59 }) 0 :=
  ⟨by decide +kernel, ⟨_, rfl, by decide +kernel⟩, _, rfl, by decide +kernel⟩

theorem test_witness_FixedFieldRoundTrips :
    ends (.wrf 4#8) (on fun b => { zeros 1 b with fval := 15#64 }) 0 ∧
      ends .rejWr (on fun b => { zeros 1 b with rejCause := 255#32 }) 0 ∧
      ends (.wrf 32#8) (on fun b => { zeros 4 b with fval := 0xFFFFFFFF#64 }) 0 :=
  ⟨⟨_, rfl, by decide +kernel⟩, ⟨_, rfl, by decide +kernel⟩, _, rfl, by decide +kernel⟩

theorem test_witness_NetworkNameRoundTrip :
    State.reset.params.wf ∧ ends .nnWr (on fun b => named 0 0 [0x54] (zeros 2 b)) 0 ∧
      ends .nnWr (on fun b => named 1 1 [0x54] (zeros 3 b)) 0 ∧ (1#8).toNat ≤ 93 ∧ (16 - 0) / 8 ≤ 255 :=
  ⟨by decide +kernel, ⟨_, rfl, by decide +kernel⟩, ⟨_, rfl, by decide +kernel⟩, by decide, by decide⟩

end Sys2Proof.Tests
end

section
/-!
The primitives of rule R11 on a block: `MemWrite` of one field, said with the block-level predicates of the statements.
-/

namespace Sys2Proof.Machine

/-- The field holds the value's bits, truncated to the width when the value is wider. -/
theorem holdsField_memWrite (b : Block) (pos n v : Nat) :
    holdsField { b with frame := memWrite b.epoch b.frame pos n v } pos n v :=
  fun _ hj => frameBit_memWrite_in hj

theorem frameKeptOutside_memWrite (b : Block) (pos n v : Nat) :
    frameKeptOutside b { b with frame := memWrite b.epoch b.frame pos n v } pos n :=
  fun _ ha => frameBit_memWrite_out ha

/-- Settles O43: the read is the sum of rule R11, the write is known bit by bit, and a field that holds a value of its
width reads as that value. -/
theorem memReadAndMemWriteMoveOneField : Obligations.MemReadAndMemWriteMoveOneField := by
  intro b pos n v
  have hholds := holdsField_memWrite b pos n v
  exact ⟨memRead_eq b pos n, hholds, frameKeptOutside_memWrite b pos n v, fieldValue_of_holds hholds⟩

end Sys2Proof.Machine
end

section
/-!
The register map of rule R35: which index selects which register, and that no index selects another.
-/

namespace Sys2Proof.Machine

/-- Of the elements of the two buffers, those within the capacities of `p` (rules R30, R34); every other register. -/
def Reg.present (p : Params) : Reg → Prop
  | .charbuf i => i < p.nnMaxChars
  | .frame k => k < p.frameCap / 8
  | _ => True

theorem registerMap_present (p : Params) : ∀ row ∈ registerMap, row.2.present p := by
  simp [registerMap, Reg.present]

/-- The index of a register (rule R35). -/
def Reg.index : Reg → Nat
  | .cmd => 0x00
  | .status => 0x01
  | .flts => 0x02
  | .cursor => 0x03
  | .frameLen => 0x04
  | .segBase => 0x05
  | .segLen => 0x06
  | .fval => 0x08
  | .svcCode => 0x10
  | .svcKnown => 0x11
  | .rejCause => 0x12
  | .sres => 0x13
  | .randHi => 0x18
  | .randLo => 0x19
  | .randExp k => 0x20 + k.val
  | .nnAlpha => 0x30
  | .nnCi => 0x31
  | .nnSpare => 0x32
  | .nnExt => 0x33
  | .nnLen => 0x34
  | .nnOctets => 0x35
  | .aChar => 0x38
  | .aCode => 0x39
  | .tk => 0x40
  | .call .year => 0x41
  | .call .mon => 0x42
  | .call .day => 0x43
  | .call .hour => 0x44
  | .call .min => 0x45
  | .call .sec => 0x46
  | .calu .year => 0x49
  | .calu .mon => 0x4A
  | .calu .day => 0x4B
  | .calu .hour => 0x4C
  | .calu .min => 0x4D
  | .calu .sec => 0x4E
  | .tzOffSec => 0x50
  | .tzQ => 0x51
  | .smOctet => 0x52
  | .bcdVal => 0x53
  | .bcdOctet => 0x54
  | .charbuf i => 0x100 + i
  | .frame k => 0x1000 + k

theorem registerMap_index : ∀ row ∈ registerMap, row.1 = row.2.index := by decide

theorem registerMap_lookup : ∀ row ∈ registerMap, registerMap.lookup row.1 = some row.2 := by decide

/-- An index selects no register but the one whose index it is, and only one that exists. -/
theorem Reg.ofIndex_some {p : Params} {index : Nat} {r : Reg} (h : Reg.ofIndex p index = some r) :
    index = r.index ∧ r.present p := by
  unfold Reg.ofIndex at h
  split at h
  · next hlookup =>
    cases h
    obtain ⟨l₁, l₂, hmap, -⟩ := List.lookup_eq_some_iff.1 hlookup
    have hmem : (index, r) ∈ registerMap := by simp [hmap]
    exact ⟨registerMap_index _ hmem, registerMap_present p _ hmem⟩
  · split_ifs at h with hexp hchar hframe <;> cases h
    · exact ⟨(Nat.add_sub_cancel' hexp.1).symm, trivial⟩
    · exact ⟨(Nat.add_sub_cancel' hchar.1).symm, Nat.sub_lt_left_of_lt_add hchar.1 hchar.2⟩
    · exact ⟨(Nat.add_sub_cancel' hframe.1).symm, Nat.sub_lt_left_of_lt_add hframe.1 hframe.2⟩

theorem Reg.ofIndex_of_mem {p : Params} {index : Nat} {r : Reg} (h : (index, r) ∈ registerMap) :
    Reg.ofIndex p index = some r := by
  unfold Reg.ofIndex
  rw [registerMap_lookup _ h]

theorem registerMap_lookup_none {index : Nat} (h : ∀ row ∈ registerMap, row.1 ≠ index) :
    registerMap.lookup index = none :=
  List.lookup_eq_none_iff.2 fun row hrow => bne_iff_ne.2 (h row hrow).symm

/-- The map's own rows stand below `0x55`, and none between `0x20` and `0x30`. -/
theorem registerMap_range : ∀ row ∈ registerMap, row.1 < 0x20 ∨ (0x30 ≤ row.1 ∧ row.1 < 0x55) := by decide

theorem Reg.ofIndex_randExp (p : Params) (k : Fin 16) : Reg.ofIndex p (0x20 + k.val) = some (.randExp k) := by
  have hk := k.isLt
  unfold Reg.ofIndex
  rw [registerMap_lookup_none fun row hrow => by have := registerMap_range row hrow; omega]
  simp only
  rw [dif_pos (by omega)]
  simp

theorem Reg.ofIndex_charbuf {p : Params} {i : Nat} (h : i < p.nnMaxChars) :
    Reg.ofIndex p (0x100 + i) = some (.charbuf i) := by
  unfold Reg.ofIndex
  rw [registerMap_lookup_none fun row hrow => by have := registerMap_range row hrow; omega]
  simp only
  rw [dif_neg (by omega), if_pos (by omega), Nat.add_sub_cancel_left]

/-- The rows of `FRAME`, where those of `CHARBUF` end below them. -/
theorem Reg.ofIndex_frame {p : Params} (hp : p.wf) {k : Nat} (h : k < p.frameCap / 8) :
    Reg.ofIndex p (0x1000 + k) = some (.frame k) := by
  obtain ⟨-, -, hchars, -⟩ := hp
  unfold Reg.ofIndex
  rw [registerMap_lookup_none fun row hrow => by have := registerMap_range row hrow; omega]
  simp only
  rw [dif_neg (by omega), if_neg (by omega), if_pos (by omega), Nat.add_sub_cancel_left]

/-- The indices of a gap of the map are the index of no register that exists. -/
theorem Reg.ofIndex_none {p : Params} {index : Nat} (h : ∀ r : Reg, r.present p → r.index ≠ index) :
    Reg.ofIndex p index = none := by
  by_contra hne
  obtain ⟨r, hr⟩ := Option.ne_none_iff_exists'.1 hne
  obtain ⟨hindex, hpresent⟩ := Reg.ofIndex_some hr
  exact h r hpresent hindex.symm

end Sys2Proof.Machine
end

section
/-!
What a step can do: the rules of `step`, `perform` and `issue`, and their inversion on the block. Every statement about all
steps or all commands goes through `step_cases`, `issue_cases` and `exec_cases`.
-/

namespace Sys2Proof.Machine

/-! ## The rules of the step -/

theorem step_of_idle {s : State} (h : s.pending = []) : step s = .next s := by
  simp only [step, advanceHost, h]

theorem step_of_pending {s : State} {e : Event} {rest : List Event} (h : s.pending = e :: rest) :
    step s = perform e { s with pending := rest } := by
  simp only [step, advanceHost, h]

theorem perform_command (v : Nat) (s : State) : perform (.write 0 v) s = issue (BitVec.ofNat 16 v) s := rfl

theorem perform_write {index : Nat} (h : index ≠ 0) (v : Nat) (s : State) :
    perform (.write index v) s = .next (s.writeIndex index v) := if_neg h

theorem issue_of_ok {c : CommandWord} {i : Instr} (h : decode c = .ok i) (s : State) : issue c s = exec i s := by
  simp only [issue, h]

theorem issue_of_error {c : CommandWord} {r : IllegalWord} (h : decode c = .error r) (s : State) :
    issue c s = .next (s.raise .illegalCommand) := by
  simp only [issue, h, State.illegalCommand]

/-! ## What a command word can do -/

/-- A command faults, or ends with its Operation's block and code 0. -/
theorem exec_cases {i : Instr} {s t : State} (h : exec i s = .next t) :
    (∃ f, t = s.raise f) ∨
      ∃ b, operationOf i s.params s.block = .ok b ∧ t = { s with block := { b with status := 0#8 } } := by
  rw [exec_eq] at h
  injection h with h
  cases hop : operationOf i s.params s.block with
  | error f => exact .inl ⟨f, h.symm.trans (command_of_error hop)⟩
  | ok b => exact .inr ⟨b, rfl, h.symm.trans (command_of_ok hop)⟩

theorem issue_next (c : CommandWord) (s : State) : ∃ t, issue c s = .next t := by
  cases h : decode c with
  | ok i => exact ⟨_, (issue_of_ok h s).trans (exec_eq i s)⟩
  | error r => exact ⟨_, issue_of_error h s⟩

/-- A command word faults, or ends with an Operation's block and code 0. -/
theorem issue_cases {c : CommandWord} {s t : State} (h : issue c s = .next t) :
    (∃ f, t = s.raise f) ∨
      ∃ i b, operationOf i s.params s.block = .ok b ∧ t = { s with block := { b with status := 0#8 } } := by
  cases hd : decode c with
  | ok i => rw [issue_of_ok hd] at h; exact (exec_cases h).imp id (fun hok => ⟨i, hok⟩)
  | error r =>
    rw [issue_of_error hd] at h
    injection h with h
    exact .inl ⟨_, h.symm⟩

/-! ## What a step can do to the block -/

/-- What one step can do to the block `b`, when `next` is the outside world's next action. -/
inductive BlockStep (p : Params) (next : Option Event) (b : Block) : Block → Prop
  | kept : BlockStep p next b b
  | fault (f : FaultCode) : BlockStep p next b (b.raise f)
  | success {i : Instr} {b' : Block} : operationOf i p b = .ok b' → BlockStep p next b { b' with status := 0#8 }
  | hostWrite {r : Reg} (v : Nat) : r.present p → BlockStep p next b (b.hostWrite p r v)
  | reset (e : Nat) : next = some .reset → BlockStep p next b (Block.afterReset e)

theorem perform_next (e : Event) (s : State) : ∃ t, perform e s = .next t := by
  cases e with
  | write index v =>
    by_cases h : index = 0
    · subst h; exact issue_next _ s
    · exact ⟨_, perform_write h v s⟩
  | read index => exact ⟨_, rfl⟩
  | reset => exact ⟨_, rfl⟩

theorem writeIndex_cases (s : State) (index v : Nat) :
    s.writeIndex index v = s ∨
      ∃ r : Reg, r.present s.params ∧ s.writeIndex index v = { s with block := s.block.hostWrite s.params r v } := by
  unfold State.writeIndex
  split
  · next r hr => exact .inr ⟨r, (Reg.ofIndex_some hr).2, rfl⟩
  · exact .inl rfl

theorem readIndex_eq (s : State) (index : Nat) : ∃ v, s.readIndex index = { s with lastRead := some v } := by
  unfold State.readIndex
  split <;> exact ⟨_, rfl⟩

theorem perform_cases {e : Event} {s t : State} (h : perform e s = .next t) :
    t.params = s.params ∧ BlockStep s.params (some e) s.block t.block := by
  cases e with
  | write index v =>
    by_cases h0 : index = 0
    · subst h0
      obtain ⟨f, rfl⟩ | ⟨i, b, hop, rfl⟩ := issue_cases h
      · exact ⟨rfl, .fault f⟩
      · exact ⟨rfl, .success hop⟩
    · rw [perform_write h0] at h
      injection h with h
      subst h
      obtain heq | ⟨r, hr, heq⟩ := writeIndex_cases s index v <;> rw [heq]
      · exact ⟨rfl, .kept⟩
      · exact ⟨rfl, .hostWrite v hr⟩
  | read index =>
    injection h with h
    obtain ⟨v, heq⟩ := readIndex_eq s index
    rw [← h, heq]
    exact ⟨rfl, .kept⟩
  | reset =>
    injection h with h
    subst h
    exact ⟨rfl, .reset _ rfl⟩

/-- A step keeps the parameters, and does one of five things to the block. -/
theorem step_cases {s t : State} (h : step s = .next t) :
    t.params = s.params ∧ BlockStep s.params s.pending.head? s.block t.block := by
  cases hp : s.pending with
  | nil =>
    rw [step_of_idle hp] at h
    injection h with h
    subst h
    exact ⟨rfl, .kept⟩
  | cons e rest =>
    rw [step_of_pending hp] at h
    have hcases := perform_cases h
    exact hcases

theorem step_goesOn (s : State) : goesOn (step s) := by
  cases hp : s.pending with
  | nil => exact ⟨s, step_of_idle hp⟩
  | cons e rest => rw [step_of_pending hp]; exact perform_next e _

end Sys2Proof.Machine
end

section
/-!
The flags: what the entry of a fault leaves in `STATUS` and `FLTS`, and that no Operation reads either of them.
-/

namespace Sys2Proof.Machine

/-! ## The entry of a fault -/

theorem statusOf_toNat (f : FaultCode) : (statusOf f).toNat = faultNumber f := by cases f <;> rfl

theorem statusOf_ne_zero (f : FaultCode) : statusOf f ≠ 0#8 := by cases f <;> decide

theorem fltsWith_getLsbD (fl : BitVec 16) (f : FaultCode) (n : Nat) :
    (fltsWith fl f).getLsbD n = (fl.getLsbD n || decide (n = faultNumber f)) := by
  have hf := faultNumber_range f
  rw [fltsWith, BitVec.getLsbD_or, BitVec.getLsbD_shiftLeft, BitVec.getLsbD_one]
  congr 1
  by_cases hn : n = faultNumber f <;> simp [hn] <;> omega

/-- A fault sets the bit of its own code (rule R19). -/
theorem fltsWith_statusOf (fl : BitVec 16) (f : FaultCode) :
    (fltsWith fl f).getLsbD (statusOf f).toNat = true := by
  simp [fltsWith_getLsbD, statusOf_toNat]

/-- The reserved bits of `FLTS` are the bit of no fault. -/
theorem fltsWith_reserved {fl : BitVec 16} (h : fl &&& 0xFC01#16 = 0#16) (f : FaultCode) :
    fltsWith fl f &&& 0xFC01#16 = 0#16 := by
  have hbit : (1#16 <<< faultNumber f) &&& 0xFC01#16 = 0#16 := by cases f <;> decide
  rw [fltsWith, BitVec.and_comm, BitVec.and_or_distrib_left, BitVec.and_comm _ fl, h, BitVec.and_comm _ (1#16 <<< _),
    hbit, BitVec.or_self]

/-! ## How the two flags read -/

theorem hostRead_status (b : Block) : b.hostRead .status = b.status.toNat % 32 := by
  simp only [Block.hostRead, statusRead, BitVec.toNat_and]
  exact Nat.and_two_pow_sub_one_eq_mod _ 5

theorem hostRead_flts_testBit (b : Block) {n : Nat} (h : n = 0 ∨ 10 ≤ n) :
    (b.hostRead .flts).testBit n = false := by
  simp only [Block.hostRead, fltsRead, BitVec.toNat_and, BitVec.toNat_ofNat, Nat.testBit_and]
  obtain rfl | h := h
  · simp
  · rw [Nat.testBit_lt_two_pow (x := 0x03FE % 2 ^ 16) (Nat.lt_of_lt_of_le (by decide : _ < 2 ^ 10)
      (Nat.pow_le_pow_right (by decide) h)), Bool.and_false]

end Sys2Proof.Machine
end

section
/-!
The invariant of `StepKeepsStateLegal`, clause by clause, along each of the five things a step can do to the block.
-/

namespace Sys2Proof.Machine

theorem Block.wf_afterReset (p : Params) (e : Nat) : (Block.afterReset e).wf p := by
  simp [Block.wf, Block.afterReset]

theorem Block.wf_raise {p : Params} {b : Block} (h : b.wf p) (f : FaultCode) : (b.raise f).wf p := by
  obtain ⟨-, hreserved, -, hrest⟩ := h
  have hcode : legalCode (statusOf f) := (statusOf_toNat f).trans_le (faultNumber_range f).2
  exact ⟨hcode, fltsWith_reserved hreserved f, fun _ => fltsWith_statusOf b.flts f, hrest⟩

/-- A successful Operation writes frame bits below `FRAME_LEN` and characters below the capacity, and code 0 asks for no
bit of `FLTS`. -/
theorem Block.wf_success {p : Params} {i : Instr} {b b' : Block} (hp : p.wf) (h : b.wf p)
    (hop : operationOf i p b = .ok b') : ({ b' with status := 0#8 } : Block).wf p := by
  obtain ⟨-, hreserved, -, hlen, hframe, hframeBound, hchars, hcharsBound⟩ := h
  obtain ⟨-, hflts, -, hlen', -⟩ := operation_keeps hop
  obtain ⟨hcap, -⟩ := hp
  have frame : Memory.wf b'.frame ∧ ∀ c ∈ b'.frame, c.1 < p.frameCap / 8 := by
    obtain heq | ⟨pos, bs, heq, hpos, -⟩ := operation_frame hop <;> rw [heq]
    · exact ⟨hframe, hframeBound⟩
    · exact ⟨wf_writeBits hframe _ _, bound_writeBits hframeBound _ _ (by omega)⟩
  have chars : Memory.wf b'.charbuf ∧ ∀ c ∈ b'.charbuf, c.1 < p.nnMaxChars := by
    obtain heq | ⟨cs, heq, hcs⟩ := operation_charbuf hop <;> rw [heq]
    · exact ⟨hchars, hcharsBound⟩
    · exact ⟨wf_charsWrite hchars _ _, bound_charsWrite hcharsBound _ _ (by omega)⟩
  exact ⟨Nat.zero_le 9, hflts ▸ hreserved, fun hne => absurd rfl hne, hlen' ▸ hlen, frame.1, frame.2, chars.1, chars.2⟩

/-- A host write to one of the three registers of the invariant clips it or stays within its buffer; the others are no
part of it. -/
theorem Block.wf_hostWrite {p : Params} {b : Block} {r : Reg} (h : b.wf p) (hr : r.present p) (v : Nat) :
    (b.hostWrite p r v).wf p := by
  obtain ⟨hcode, hreserved, hbit, hlen, hframe, hframeBound, hchars, hcharsBound⟩ := h
  cases r
  case frameLen =>
    have hclip : (BitVec.ofNat 16 (min v p.frameCap)).toNat ≤ p.frameCap :=
      (Nat.mod_le _ _).trans (Nat.min_le_right _ _)
    exact ⟨hcode, hreserved, hbit, hclip, hframe, hframeBound, hchars, hcharsBound⟩
  case charbuf i =>
    exact ⟨hcode, hreserved, hbit, hlen, hframe, hframeBound, Memory.wf_write hchars _ _,
      Memory.bound_write hcharsBound hr _⟩
  case frame k =>
    exact ⟨hcode, hreserved, hbit, hlen, Memory.wf_write hframe _ _, Memory.bound_write hframeBound hr _, hchars,
      hcharsBound⟩
  all_goals exact ⟨hcode, hreserved, hbit, hlen, hframe, hframeBound, hchars, hcharsBound⟩

theorem Block.wf_step {p : Params} {next : Option Event} {b b' : Block} (hp : p.wf) (h : b.wf p)
    (hstep : BlockStep p next b b') : b'.wf p := by
  cases hstep with
  | kept => exact h
  | fault f => exact Block.wf_raise h f
  | success hop => exact Block.wf_success hp h hop
  | hostWrite v hr => exact Block.wf_hostWrite h hr v
  | reset e _ => exact Block.wf_afterReset p e

/-- Settles O13: each of the five things a step can do to the block keeps the invariant. -/
theorem stepKeepsStateLegal : Obligations.StepKeepsStateLegal := by
  intro s t ⟨hp, hb⟩ hstep
  obtain ⟨hparams, hblock⟩ := step_cases hstep
  rw [State.wf, hparams]
  exact ⟨⟨hp, Block.wf_step hp hb hblock⟩, rfl⟩

theorem documentedParams_wf : documentedParams.wf := by decide +kernel

/-- Settles O14: a reset lists nothing in the buffers and leaves the flags and `FRAME_LEN` 0. -/
theorem resetStateIsLegal : Obligations.ResetStateIsLegal := by
  have legal : ∀ p : Params, p.wf → (State.resetWith p).wf := fun p hp => ⟨hp, Block.wf_afterReset p 0⟩
  exact ⟨legal, legal _ documentedParams_wf⟩

end Sys2Proof.Machine
end

section
/-!
No Operation reads `STATUS` or `FLTS`: each commutes with a change of the two.
-/

namespace Sys2Proof.Machine

/-- The block with other flags. -/
def Block.withFlags (b : Block) (status : BitVec 8) (flts : BitVec 16) : Block :=
  { b with status := status, flts := flts }

section
variable (b : Block) (st : BitVec 8) (fl : BitVec 16)

@[simp] theorem Block.withFlags_frameLen : (b.withFlags st fl).frameLen = b.frameLen := rfl
@[simp] theorem Block.withFlags_segBase : (b.withFlags st fl).segBase = b.segBase := rfl
@[simp] theorem Block.withFlags_segLen : (b.withFlags st fl).segLen = b.segLen := rfl
@[simp] theorem Block.withFlags_fval : (b.withFlags st fl).fval = b.fval := rfl
@[simp] theorem Block.withFlags_rejCause : (b.withFlags st fl).rejCause = b.rejCause := rfl
@[simp] theorem Block.withFlags_randHi : (b.withFlags st fl).randHi = b.randHi := rfl
@[simp] theorem Block.withFlags_randLo : (b.withFlags st fl).randLo = b.randLo := rfl
@[simp] theorem Block.withFlags_aChar : (b.withFlags st fl).aChar = b.aChar := rfl
@[simp] theorem Block.withFlags_nnAlpha : (b.withFlags st fl).nnAlpha = b.nnAlpha := rfl
@[simp] theorem Block.withFlags_nnLen : (b.withFlags st fl).nnLen = b.nnLen := rfl
@[simp] theorem Block.withFlags_nnOctets : (b.withFlags st fl).nnOctets = b.nnOctets := rfl
@[simp] theorem Block.withFlags_bcdVal : (b.withFlags st fl).bcdVal = b.bcdVal := rfl
@[simp] theorem Block.withFlags_tzOffSec : (b.withFlags st fl).tzOffSec = b.tzOffSec := rfl
@[simp] theorem Block.overrun_withFlags (n : Nat) : (b.withFlags st fl).overrun n = b.overrun n := rfl
@[simp] theorem Block.readAt_withFlags (off n : Nat) : (b.withFlags st fl).readAt off n = b.readAt off n := rfl
@[simp] theorem Block.chars_withFlags (sz : Nat) : (b.withFlags st fl).chars sz = b.chars sz := rfl
@[simp] theorem selectedBank_withFlags : selectedBank (b.withFlags st fl) = selectedBank b := rfl
@[simp] theorem Block.writeFields_withFlags (fs : List (Nat × Nat)) :
    (b.withFlags st fl).writeFields fs = (b.writeFields fs).withFlags st fl := rfl

theorem nnEmit_withFlags (spare : Nat) (text : List Bool) :
    nnEmit (b.withFlags st fl) spare text = (Block.withFlags · st fl) <$> nnEmit b spare text := by
  simp only [nnEmit, Block.overrun_withFlags, apply_ite (Functor.map _), Except.map_error, Except.map_ok]
  rfl

theorem nnAccept_withFlags (p : Params) (hdr : Octet) (n : Nat) (cs : List CharUnit) :
    nnAccept p (b.withFlags st fl) hdr n cs = (Block.withFlags · st fl) <$> nnAccept p b hdr n cs := by
  simp only [nnAccept, apply_ite (Functor.map _), Except.map_error, Except.map_ok]
  rfl

theorem operationOf_withFlags (i : Instr) (p : Params) :
    operationOf i p (b.withFlags st fl) = (Block.withFlags · st fl) <$> operationOf i p b := by
  cases i
  case nop | randExp | a7Dec | bcdDec | smDec => rfl
  case a7Enc =>
    simp only [operationOf, opA7Enc, Block.withFlags_aChar]
    cases enc7 p b.aChar <;> rfl
  case nnWr =>
    simp only [operationOf, opNnWr, apply_ite (Functor.map _), nnEmit_withFlags, Block.chars_withFlags,
      Block.withFlags_nnLen, Block.withFlags_nnAlpha]
    cases enc7All p (b.chars b.nnLen.toNat) <;> rfl
  case nnRd =>
    simp only [operationOf, opNnRd, apply_ite (Functor.map _), nnAccept_withFlags, Block.overrun_withFlags,
      Block.readAt_withFlags, Block.withFlags_nnOctets]
    rfl
  all_goals
    simp only [operationOf, opRdf, opWrf, opSeg, opL8m, opSvcRd, opRejWr, opSresRd, opRandWr, opRandRd, opTztWr, opTztRd,
      opBcdEnc, opSmEnc, apply_ite (Functor.map _), Except.map_error, Except.map_ok, Block.withFlags_frameLen,
      Block.withFlags_segBase, Block.withFlags_segLen, Block.withFlags_fval, Block.withFlags_rejCause,
      Block.withFlags_randHi, Block.withFlags_randLo, Block.withFlags_bcdVal, Block.withFlags_tzOffSec,
      Block.overrun_withFlags, selectedBank_withFlags, Block.writeFields_withFlags]
    rfl

/-- The result code of a command does not depend on the flags before it. -/
theorem finish_status_withFlags (i : Instr) (p : Params) :
    ((b.withFlags st fl).finish (operationOf i p (b.withFlags st fl))).status =
      (b.finish (operationOf i p b)).status := by
  rw [operationOf_withFlags]
  cases operationOf i p b <;> rfl

end

/-- The result code of a command word does not depend on the flags before it. -/
theorem issue_status_withFlags {c : CommandWord} {s t t' : State} {st : BitVec 8} {fl : BitVec 16}
    (h : issue c s = .next t) (h' : issue c { s with block := s.block.withFlags st fl } = .next t') :
    t'.block.status = t.block.status := by
  cases hd : decode c with
  | ok i =>
    rw [issue_of_ok hd, exec_eq] at h h'
    cases h
    cases h'
    exact finish_status_withFlags s.block st fl i s.params
  | error r =>
    rw [issue_of_error hd] at h h'
    cases h
    cases h'
    rfl

end Sys2Proof.Machine
end

section
/-!
What each successful command can change, and the bits of the frame that it moves at `CURSOR`.
-/

namespace Sys2Proof.Machine

/-- The bound of rule R50: the `n` bits at `CURSOR` end within the frame. -/
def Block.fits (b : Block) (n : Nat) : Prop := b.cursor.toNat + n ≤ b.frameLen.toNat

/-- The length of the network-name element that `NN.WR` writes: the header, the text and its spare bits (rule R93). -/
def nnWrBits (b : Block) : Nat :=
  if b.nnAlpha = alphaSelDefault then 8 + 7 * b.nnLen.toNat + b.nnLen.toNat % 8 else 8 + 16 * b.nnLen.toNat

/-- What a successful command makes of a block: the registers that the table of rule R15 lists for it, and `CURSOR` after
the bits of the table of rule R48. -/
def SuccessChanges (i : Instr) (b b' : Block) : Prop :=
  match i with
  | .nop => b' = b
  | .rdf w => b.fits w.toNat ∧ ∃ v, b' = { b.advance w.toNat with fval := v }
  | .wrf w => b.fits w.toNat ∧ ∃ f, b' = { b.advance w.toNat with frame := f }
  | .seg => b' = { b with segBase := b.cursor }
  | .l8m => ∃ f, b' = { b with frame := f }
  | .svcRd => b.fits 4 ∧ ∃ c k, b' = { b.advance 4 with svcCode := c, svcKnown := k }
  | .rejWr => b.fits 8 ∧ ∃ f, b' = { b.advance 8 with frame := f }
  | .sresRd => b.fits 32 ∧ ∃ v, b' = { b.advance 32 with sres := v }
  | .randWr => b.fits 128 ∧ ∃ f, b' = { b.advance 128 with frame := f }
  | .randRd => b.fits 128 ∧ ∃ hi lo, b' = { b.advance 128 with randHi := hi, randLo := lo }
  | .randExp => ∃ bytes, b' = { b with randExp := bytes }
  | .nnWr => b.fits (nnWrBits b) ∧ ∃ f spare, b' = { b.advance (nnWrBits b) with frame := f, nnSpare := spare }
  | .nnRd => b.fits (8 * b.nnOctets.toNat) ∧ ∃ ext alpha ci spare len cs,
      b' = { b.advance (8 * b.nnOctets.toNat) with
        nnExt := ext, nnAlpha := alpha, nnCi := ci, nnSpare := spare, nnLen := len, charbuf := cs }
  | .a7Enc => ∃ code, b' = { b with aCode := code }
  | .a7Dec => ∃ ch, b' = { b with aChar := ch }
  | .tztWr => b.fits 56 ∧ ∃ f, b' = { b.advance 56 with frame := f }
  | .tztRd => b.fits 56 ∧ ∃ bank q off, b' = { b.advance 56 with calu := bank, tzQ := q, tzOffSec := off }
  | .bcdEnc => ∃ o, b' = { b with bcdOctet := o }
  | .bcdDec => ∃ v, b' = { b with bcdVal := v }
  | .smEnc => ∃ q o, b' = { b with tzQ := q, smOctet := o }
  | .smDec => ∃ q off, b' = { b with tzQ := q, tzOffSec := off }

/-- A check that did not fault was passed. -/
theorem passed_of_ok {cond : Prop} [Decidable cond] {f : FaultCode} {rest : Except FaultCode Block} {b' : Block}
    (h : (if cond then .error f else rest) = .ok b') : ¬ cond ∧ rest = .ok b' := by
  split_ifs at h with hc
  exact ⟨hc, h⟩

theorem fits_of_ok {b b' x : Block} {n : Nat} {f : FaultCode}
    (h : (if b.overrun n then .error f else .ok x : Except FaultCode Block) = .ok b') :
    b.fits n ∧ b' = x := by
  obtain ⟨hc, hx⟩ := passed_of_ok h
  injection hx with hx
  exact ⟨overrun_eq_false.1 (by simpa using hc), hx.symm⟩

/-- A write at `CURSOR` changes the frame and advances by the sum of the widths. -/
theorem writes_of_ok {b b' : Block} {fs : List (Nat × Nat)} {n : Nat} {f : FaultCode} (hn : (fs.map Prod.fst).sum = n)
    (h : (if b.overrun n then .error f else .ok (b.writeFields fs) : Except FaultCode Block) = .ok b') :
    b.fits n ∧ ∃ f, b' = { b.advance n with frame := f } := by
  obtain ⟨hfits, rfl⟩ := fits_of_ok h
  subst hn
  exact ⟨hfits, _, rfl⟩

/-- Every successful Operation changes what its row says and nothing else. -/
theorem successChanges_of_ok {i : Instr} {p : Params} {b b' : Block} (h : operationOf i p b = .ok b') :
    SuccessChanges i b b' := by
  cases i with
  | nop => cases h; rfl
  | rdf w =>
    obtain ⟨-, h⟩ := passed_of_ok h
    obtain ⟨hfits, rfl⟩ := fits_of_ok h
    exact ⟨hfits, _, rfl⟩
  | wrf w =>
    obtain ⟨-, h⟩ := passed_of_ok h
    obtain ⟨-, h⟩ := passed_of_ok h
    exact writes_of_ok (by simp) h
  | seg => obtain ⟨-, h⟩ := passed_of_ok h; cases h; rfl
  | l8m => obtain ⟨-, h⟩ := passed_of_ok h; cases h; exact ⟨_, rfl⟩
  | svcRd => obtain ⟨hfits, rfl⟩ := fits_of_ok h; exact ⟨hfits, _, _, rfl⟩
  | rejWr => obtain ⟨-, h⟩ := passed_of_ok h; exact writes_of_ok (by simp) h
  | sresRd => obtain ⟨hfits, rfl⟩ := fits_of_ok h; exact ⟨hfits, _, rfl⟩
  | randWr => exact writes_of_ok (by simp) h
  | randRd => obtain ⟨hfits, rfl⟩ := fits_of_ok h; exact ⟨hfits, _, _, rfl⟩
  | randExp => cases h; exact ⟨_, rfl⟩
  | nnWr =>
    obtain ⟨-, ⟨halpha, codes, hcodes, h⟩ | ⟨halpha, -, h⟩⟩ := opNnWr_ok h <;> obtain ⟨hfits, rfl⟩ := nnEmit_ok h
    · have hlen : 8 + (pack7 codes).length = nnWrBits b := by
        rw [nnWrBits, if_pos halpha, pack7_length, (enc7All_some hcodes).1, chars_length, spareCount_eq, Nat.add_assoc]
      rw [hlen] at hfits ⊢
      exact ⟨hfits, _, _, rfl⟩
    · have hlen : 8 + (wideText (b.chars b.nnLen.toNat)).length = nnWrBits b := by
        rw [nnWrBits, if_neg halpha, wideText_length, chars_length]
      rw [hlen] at hfits ⊢
      exact ⟨hfits, _, _, rfl⟩
  | nnRd =>
    obtain ⟨-, hfits, hdr, cs, h⟩ := opNnRd_ok h
    obtain ⟨-, rfl⟩ := nnAccept_ok h
    exact ⟨hfits, _, _, _, _, _, _, rfl⟩
  | a7Enc => simp only [operationOf, opA7Enc] at h; split at h <;> cases h; exact ⟨_, rfl⟩
  | a7Dec => cases h; exact ⟨_, rfl⟩
  | tztWr =>
    obtain ⟨-, h⟩ := passed_of_ok h
    obtain ⟨-, h⟩ := passed_of_ok h
    exact writes_of_ok (tztFields_sum _ _ _) h
  | tztRd => obtain ⟨hfits, rfl⟩ := fits_of_ok h; exact ⟨hfits, _, _, _, rfl⟩
  | bcdEnc => obtain ⟨-, h⟩ := passed_of_ok h; cases h; exact ⟨_, rfl⟩
  | bcdDec => cases h; exact ⟨_, rfl⟩
  | smEnc => obtain ⟨-, h⟩ := passed_of_ok h; cases h; exact ⟨_, _, rfl⟩
  | smDec => cases h; exact ⟨_, _, rfl⟩

/-- A successful command moves the bits of the table of rule R48 within the frame, and `CURSOR` past them. -/
theorem cursor_of_successChanges {i : Instr} {s : State} {b' : Block} (h : SuccessChanges i s.block b') :
    (∀ n, bitsMoved i s = some n → s.block.fits n ∧ b'.cursor = BitVec.ofNat 16 (s.block.cursor.toNat + n)) ∧
      (bitsMoved i s = none → b'.cursor = s.block.cursor) := by
  cases i
  case nnWr =>
    have hbits : bitsMoved .nnWr s = some (nnWrBits s.block) := by
      unfold bitsMoved nnWrBits; split_ifs <;> rfl
    obtain ⟨hfits, f, spare, rfl⟩ := h
    rw [hbits]
    exact ⟨fun n hn => Option.some.inj hn ▸ ⟨hfits, rfl⟩, nofun⟩
  case nop | seg => cases h; exact ⟨nofun, fun _ => rfl⟩
  case l8m | randExp | a7Enc | a7Dec | bcdEnc | bcdDec => obtain ⟨_, rfl⟩ := h; exact ⟨nofun, fun _ => rfl⟩
  case smEnc | smDec => obtain ⟨_, _, rfl⟩ := h; exact ⟨nofun, fun _ => rfl⟩
  case svcRd | randRd => obtain ⟨hfits, _, _, rfl⟩ := h; exact ⟨fun n hn => Option.some.inj hn ▸ ⟨hfits, rfl⟩, nofun⟩
  case tztRd => obtain ⟨hfits, _, _, _, rfl⟩ := h; exact ⟨fun n hn => Option.some.inj hn ▸ ⟨hfits, rfl⟩, nofun⟩
  case nnRd =>
    obtain ⟨hfits, _, _, _, _, _, _, rfl⟩ := h
    exact ⟨fun n hn => Option.some.inj hn ▸ ⟨hfits, rfl⟩, nofun⟩
  case rdf | wrf | rejWr | sresRd | randWr | tztWr =>
    obtain ⟨hfits, _, rfl⟩ := h
    exact ⟨fun n hn => Option.some.inj hn ▸ ⟨hfits, rfl⟩, nofun⟩

end Sys2Proof.Machine
end

section
/-!
The statements about the step and about every command.
-/

namespace Sys2Proof.Machine

/-- Settles O5, by the rules of the step and of `issue`. -/
theorem stepRunsTheDecodedCommand : Obligations.StepRunsTheDecodedCommand := by
  intro s v rest hpending
  have hstep : step s = issue (BitVec.ofNat 16 v) { s with pending := rest } :=
    (step_of_pending hpending).trans (perform_command v _)
  exact ⟨hstep, fun i hi => hstep.trans (issue_of_ok hi _), fun r hr => hstep.trans (issue_of_error hr _)⟩

/-- Settles O6, by the rule of the idle step. -/
theorem idleStepChangesNothing : Obligations.IdleStepChangesNothing := fun _ hidle => step_of_idle hidle

/-- Settles O10: the epoch of a later reset is the one after the block's own. -/
theorem resetClearsTheControlRegisters : Obligations.ResetClearsTheControlRegisters :=
  ⟨fun _ => ⟨0, rfl⟩, fun s _ hpending => ⟨s.block.epoch + 1, step_of_pending hpending⟩,
    fun _ => ⟨rfl, rfl, rfl, rfl, rfl, rfl, rfl⟩⟩

/-- Settles O11: a command is its Operation's outcome on the parameters and the block. -/
theorem commandDependsOnParametersAndBlockAlone : Obligations.CommandDependsOnParametersAndBlockAlone := by
  refine ⟨step_goesOn, fun i s s' hparams hblock => ⟨s.block.finish (operationOf i s.params s.block), exec_eq i s, ?_⟩⟩
  rw [hparams, hblock]
  exact exec_eq i s'

theorem hostWrite_flts (p : Params) (b : Block) (r : Reg) (v : Nat) : (b.hostWrite p r v).flts = b.flts := by
  cases r <;> rfl

theorem BlockStep.flts_sticky {p : Params} {next : Option Event} {b b' : Block} (h : BlockStep p next b b')
    (hnext : next ≠ some .reset) {n : Nat} (hn : b.flts.getLsbD n = true) : b'.flts.getLsbD n = true := by
  cases h with
  | kept => exact hn
  | fault f => rw [Block.raise_flts, fltsWith_getLsbD, hn, Bool.true_or]
  | success hop =>
    obtain ⟨-, hflts, -⟩ := operation_keeps hop
    rw [hflts]
    exact hn
  | hostWrite v hr => rw [hostWrite_flts]; exact hn
  | reset e he => exact absurd he hnext

/-- Settles O15: bits are only ever joined to `FLTS`, those of the faults. -/
theorem faultBitsAreSticky : Obligations.FaultBitsAreSticky := by
  refine ⟨fun b n hn => hostRead_flts_testBit b hn, fun i s t h hne => ?_, fun s t h hnext n hn => ?_,
    fun _ _ _ => rfl⟩
  · obtain ⟨f, rfl⟩ | ⟨b, -, rfl⟩ := exec_cases h
    · exact fltsWith_statusOf s.block.flts f
    · exact absurd rfl hne
  · obtain ⟨-, hblock⟩ := step_cases h
    exact hblock.flts_sticky hnext hn

/-- Settles O16: a word ends in a fault's code or in code 0, and no Operation reads the flags. -/
theorem everyCommandOverwritesStatus : Obligations.EveryCommandOverwritesStatus := by
  have ends : ∀ (c : CommandWord) (s : State), ∃ b, issue c s = .next { s with block := b } ∧ b.status.toNat ≤ 9 := by
    intro c s
    obtain ⟨t, h⟩ := issue_next c s
    obtain ⟨f, rfl⟩ | ⟨i, b, -, rfl⟩ := issue_cases h
    · exact ⟨_, h, (statusOf_toNat f).trans_le (faultNumber_range f).2⟩
    · exact ⟨_, h, Nat.zero_le 9⟩
  refine ⟨fun c s => ?_, hostRead_status, fun _ _ _ => rfl⟩
  obtain ⟨b, h, hcode⟩ := ends c s
  refine ⟨b, h, hcode, fun old => ?_⟩
  obtain ⟨b', h', -⟩ := ends c { s with block := s.block.withFlags old s.block.flts }
  exact ⟨b', h', issue_status_withFlags h h'⟩

/-- Settles O17: a fault changes no register but the flags, and a success those of its row. -/
theorem onlyListedCommandsWriteARegister : Obligations.OnlyListedCommandsWriteARegister := by
  intro i s t h
  obtain ⟨f, rfl⟩ | ⟨b, hop, rfl⟩ := exec_cases h
  · simp
  · have hchanges := successChanges_of_ok hop
    cases i
    case nop | seg => cases hchanges; simp
    case l8m | randExp | a7Enc | a7Dec | bcdEnc | bcdDec => obtain ⟨_, rfl⟩ := hchanges; simp
    case smEnc | smDec => obtain ⟨_, _, rfl⟩ := hchanges; simp
    case rdf | wrf | rejWr | sresRd | randWr | tztWr => obtain ⟨-, _, rfl⟩ := hchanges; simp
    case svcRd | randRd | nnWr => obtain ⟨-, _, _, rfl⟩ := hchanges; simp
    case tztRd => obtain ⟨-, _, _, _, rfl⟩ := hchanges; simp
    case nnRd => obtain ⟨-, _, _, _, _, _, _, rfl⟩ := hchanges; simp

/-- Settles O19: a command that passes its bound moves `CURSOR` within the frame, so the sum does not wrap. -/
theorem cursorAdvancesByTheBitsMoved : Obligations.CursorAdvancesByTheBitsMoved := by
  intro i s t h
  obtain ⟨f, rfl⟩ | ⟨b, hop, rfl⟩ := exec_cases h
  · exact ⟨fun _ _ hok => absurd hok (statusOf_ne_zero f), fun _ => rfl⟩
  · obtain ⟨hmoves, hstays⟩ := cursor_of_successChanges (successChanges_of_ok hop)
    refine ⟨fun n hn _ => ?_, fun hnone => hstays (hnone.resolve_right fun hne => hne rfl)⟩
    obtain ⟨hfits, hcursor⟩ := hmoves n hn
    have hsum : b.cursor.toNat = s.block.cursor.toNat + n := hcursor ▸ cursor_sum_toNat hfits
    exact ⟨hsum, hsum.trans_le hfits⟩

end Sys2Proof.Machine
end

section
/-!
The statements about the host's accesses: what a read and a write of an index do to the block.
-/

namespace Sys2Proof.Machine

/-- Settles O9: a selected register gives back its index, so no two indices select it and no gap selects one. -/
theorem everyRegisterHasOneIndex : Obligations.EveryRegisterHasOneIndex := by
  intro p hp
  have row : ∀ x : Nat × Reg × Nat, (x.1, x.2.1) ∈ registerMap ∧ x.2.1.width = x.2.2 →
      Reg.ofIndex p x.1 = some x.2.1 ∧ x.2.1.width = x.2.2 := fun _ hx => hx.imp_left Reg.ofIndex_of_mem
  refine ⟨fun i j r hi hj => (Reg.ofIndex_some hi).1.trans (Reg.ofIndex_some hj).1.symm,
    fun x hx => row x (by revert x; decide), fun x hx => row x (by revert x; decide),
    fun k => ⟨Reg.ofIndex_randExp p k, rfl⟩, fun i hi => ⟨Reg.ofIndex_charbuf hi, rfl⟩,
    fun k hk => ⟨Reg.ofIndex_frame hp hk, rfl⟩, fun index hgap => Reg.ofIndex_none fun r hr => ?_⟩
  obtain ⟨-, -, hchars, -⟩ := hp
  cases r
  case call f | calu f => cases f <;> simp only [Reg.index] <;> omega
  all_goals (simp only [Reg.index, Reg.present] at hr ⊢; omega)

/-! ## What a host access does to the block -/

/-- The number a host read of an index returns. -/
def readValue (p : Params) (b : Block) (index : Nat) : Nat := ((Reg.ofIndex p index).map b.hostRead).getD 0

/-- The block after a host write to an index other than `CMD`'s. -/
def writtenBlock (p : Params) (b : Block) (index v : Nat) : Block :=
  ((Reg.ofIndex p index).map fun r => b.hostWrite p r v).getD b

theorem step_of_read {s : State} {index : Nat} {rest : List Event} (h : s.pending = .read index :: rest) :
    step s = .next { s with pending := rest, lastRead := some (readValue s.params s.block index) } := by
  rw [step_of_pending h, perform, State.readIndex, readValue]
  cases Reg.ofIndex s.params index <;> rfl

theorem step_of_write {s : State} {index v : Nat} {rest : List Event} (hindex : index ≠ 0)
    (h : s.pending = .write index v :: rest) :
    step s = .next { s with pending := rest, block := writtenBlock s.params s.block index v } := by
  rw [step_of_pending h, perform_write hindex, State.writeIndex, writtenBlock]
  cases Reg.ofIndex s.params index <;> rfl

section
variable {p : Params} {b : Block} {index : Nat}

theorem readValue_of_some {r : Reg} (h : Reg.ofIndex p index = some r) : readValue p b index = b.hostRead r := by
  simp [readValue, h]

theorem readValue_of_none (h : Reg.ofIndex p index = none) : readValue p b index = 0 := by simp [readValue, h]

theorem writtenBlock_of_some {r : Reg} (h : Reg.ofIndex p index = some r) (v : Nat) :
    writtenBlock p b index v = b.hostWrite p r v := by
  simp [writtenBlock, h]

theorem writtenBlock_of_none (h : Reg.ofIndex p index = none) (v : Nat) : writtenBlock p b index v = b := by
  simp [writtenBlock, h]
end

/-- A table of what `f` gives at each of its indices. -/
theorem row_of_table {α : Type} (f : Nat → α) {table : List (Nat × α)} {index : Nat}
    (h : ∀ row ∈ table, f row.1 = row.2) : ∀ row ∈ table, index = row.1 → f index = row.2 := by
  rintro row hrow rfl
  exact h row hrow

/-! ## Reading -/

theorem hostRead_lt (b : Block) (r : Reg) : b.hostRead r < 2 ^ r.width := by
  cases r
  case cmd => exact Nat.two_pow_pos _
  case call f | calu f => cases f <;> exact BitVec.isLt _
  all_goals exact BitVec.isLt _

/-- The octet the host sees is the eight frame bits at its place, most significant first (rules R10, R46). -/
theorem octet_toNat (b : Block) (k : Nat) : (b.octet k).toNat = fieldValue b (8 * k) 8 := by
  apply Nat.eq_of_testBit_eq
  intro i
  rw [fieldValue_testBit, BitVec.testBit_toNat]
  by_cases hi : i < 8
  · simp only [hi, decide_true, Bool.true_and, Block.bit, frameBit, Block.octet]
    congr 2 <;> omega
  · rw [BitVec.getLsbD_of_ge _ _ (by omega)]
    simp [hi]

/-- Settles O7, row by row: each index selects its register, and each register reads as its field. -/
theorem hostReadReturnsTheRegister : Obligations.HostReadReturnsTheRegister := by
  rintro s b index rest hpending rfl
  have at_row {i : Nat} {r : Reg} (h : Reg.ofIndex s.params i = some r) (hi : index = i) :
      readValue s.params s.block index = s.block.hostRead r := readValue_of_some (hi ▸ h)
  refine ⟨readValue s.params s.block index, step_of_read hpending, row_of_table (readValue s.params s.block) ?_,
    row_of_table (readValue s.params s.block) ?_, fun k hk => (at_row (Reg.ofIndex_randExp _ k) hk).trans ?_,
    fun i hi h => at_row (Reg.ofIndex_charbuf hi) h,
    fun hp k hk h => (at_row (Reg.ofIndex_frame hp hk) h).trans (octet_toNat s.block k), readValue_of_none,
    fun r hr => ?_⟩
  · simp only [List.forall_mem_cons, List.not_mem_nil, false_imp_iff, implies_true, and_true]
    refine ⟨rfl, hostRead_status s.block, ?_⟩
    and_intros <;> rfl
  · simp only [List.forall_mem_cons, List.not_mem_nil, false_imp_iff, implies_true, and_true]
    and_intros <;> rfl
  · simp [Block.hostRead]
  · rw [readValue_of_some hr]
    exact ⟨rfl, hostRead_lt s.block r⟩

/-! ## Writing -/

/-- The registers whose host writes are ignored, and `CMD` (rules R17, R36(b)). -/
theorem hostWritable_eq_false_iff (r : Reg) :
    r.hostWritable = false ↔ r = .cmd ∨ r = .status ∨ r = .flts ∨ r = .segBase ∨ ∃ k, r = .randExp k := by
  cases r <;> simp [Reg.hostWritable]

theorem hostWrite_of_not_writable {r : Reg} (h : r.hostWritable = false) (p : Params) (b : Block) (v : Nat) :
    b.hostWrite p r v = b := by
  obtain rfl | rfl | rfl | rfl | ⟨k, rfl⟩ := (hostWritable_eq_false_iff r).1 h <;> rfl

theorem char_hostWrite_charbuf (p : Params) (b : Block) (i j v : Nat) :
    (b.hostWrite p (.charbuf i) v).char j = if i = j then BitVec.ofNat 16 v else b.char j := by
  simp only [Block.char, Block.hostWrite, Memory.read?_write]
  split <;> rfl

theorem octet_hostWrite_frame (p : Params) (b : Block) (k j v : Nat) :
    (b.hostWrite p (.frame k) v).octet j = if k = j then BitVec.ofNat 8 v else b.octet j :=
  frameOctet_write b.epoch b.frame k j _

theorem frameKept_hostWrite_frame (p : Params) (b : Block) (k v : Nat) :
    frameKeptOutside b (b.hostWrite p (.frame k) v) (8 * k) 8 := by
  intro a ha
  have hoctet : (b.hostWrite p (.frame k) v).octet (a / 8) = b.octet (a / 8) := by
    rw [octet_hostWrite_frame, if_neg (by omega)]
  exact congrArg (BitVec.getLsbD · (7 - a % 8)) hoctet

theorem hostRead_hostWrite_same {r : Reg} (hw : r.hostWritable = true) (hlen : r ≠ .frameLen) (p : Params) (b : Block)
    (v : Nat) : (b.hostWrite p r v).hostRead r = v % 2 ^ r.width := by
  cases r
  case cmd | status | flts | segBase | randExp => cases hw
  case frameLen => exact absurd rfl hlen
  case call f | calu f => cases f <;> exact BitVec.toNat_ofNat _ _
  case charbuf i => rw [Block.hostRead, char_hostWrite_charbuf, if_pos rfl, BitVec.toNat_ofNat]; rfl
  case frame k => rw [Block.hostRead, octet_hostWrite_frame, if_pos rfl, BitVec.toNat_ofNat]; rfl
  all_goals exact BitVec.toNat_ofNat _ _

/-- `FRAME_LEN` takes a value up to `FRAME_CAP`, which fits its 16 bits (rule R21). -/
theorem hostRead_hostWrite_frameLen {p : Params} (hp : p.wf) (b : Block) (v : Nat) :
    (b.hostWrite p .frameLen v).hostRead .frameLen = min v p.frameCap := by
  obtain ⟨-, hcap, -⟩ := hp
  simp only [Block.hostRead, Block.hostWrite, BitVec.toNat_ofNat]
  omega

theorem CalBank.read_write_of_ne {f f' : CalField} (h : f' ≠ f) (c : CalBank) (v : Nat) :
    (c.write f v).read f' = c.read f' := by
  cases f <;> cases f' <;> first | rfl | exact absurd rfl h

/-- A host write is seen by no read but that of its own register: each register is one field of the block, one field of a
bank, or one element of a buffer. -/
theorem hostRead_hostWrite_of_ne {r r' : Reg} (h : r' ≠ r) (p : Params) (b : Block) (v : Nat) :
    (b.hostWrite p r v).hostRead r' = b.hostRead r' := by
  cases r
  case call f =>
    cases r'
    case call f' => exact CalBank.read_write_of_ne (fun hf => h (congrArg _ hf)) b.call v
    all_goals rfl
  case calu f =>
    cases r'
    case calu f' => exact CalBank.read_write_of_ne (fun hf => h (congrArg _ hf)) b.calu v
    all_goals rfl
  case charbuf i =>
    cases r'
    case charbuf j =>
      simp only [Block.hostRead, char_hostWrite_charbuf]
      rw [if_neg fun hi => h (congrArg _ hi.symm)]
    all_goals rfl
  case frame k =>
    cases r'
    case frame j =>
      simp only [Block.hostRead, octet_hostWrite_frame]
      rw [if_neg fun hk => h (congrArg _ hk.symm)]
    all_goals rfl
  all_goals cases r' <;> first | rfl | exact absurd rfl h

/-- Settles O8, row by row: each index selects its register, and a write replaces that register's field alone. -/
theorem hostWriteStoresTheLowBits : Obligations.HostWriteStoresTheLowBits := by
  refine ⟨hostWritable_eq_false_iff, ?_⟩
  rintro s b index v rest hp hindex hpending rfl
  have at_row {i : Nat} {r : Reg} (h : Reg.ofIndex s.params i = some r) (hi : index = i) :
      writtenBlock s.params s.block index v = s.block.hostWrite s.params r v := writtenBlock_of_some (hi ▸ h) v
  refine ⟨writtenBlock s.params s.block index v, step_of_write hindex hpending, ?_,
    row_of_table (writtenBlock s.params s.block · v) ?_,
    row_of_table (writtenBlock s.params s.block · v) ?_, fun i hi h => ?_, fun k hk h => ?_,
    fun h => writtenBlock_of_none h v, fun r hr => ?_⟩
  · rintro (h | h | h | ⟨hlo, hhi⟩)
    · exact at_row (r := .status) rfl h
    · exact at_row (r := .flts) rfl h
    · exact at_row (r := .segBase) rfl h
    · exact at_row (Reg.ofIndex_randExp _ ⟨index - 0x20, by omega⟩) (by simp only; omega)
  · simp only [List.forall_mem_cons, List.not_mem_nil, false_imp_iff, implies_true, and_true]
    and_intros <;> rfl
  · simp only [List.forall_mem_cons, List.not_mem_nil, false_imp_iff, implies_true, and_true]
    and_intros <;> rfl
  · rw [at_row (Reg.ofIndex_charbuf hi) h]
    have char := char_hostWrite_charbuf s.params s.block i
    exact ⟨rfl, (char i v).trans (if_pos rfl), fun j hj => (char j v).trans (if_neg hj.symm)⟩
  · rw [at_row (Reg.ofIndex_frame hp hk) h]
    refine ⟨rfl, ?_, frameKept_hostWrite_frame s.params s.block k v⟩
    rw [← octet_toNat, octet_hostWrite_frame, if_pos rfl, BitVec.toNat_ofNat]
  · rw [writtenBlock_of_some hr]
    refine ⟨fun hw => hostWrite_of_not_writable hw _ _ _, fun hw hlen => hostRead_hostWrite_same hw hlen _ _ _, ?_,
      fun r' hne => hostRead_hostWrite_of_ne hne _ _ _⟩
    rintro rfl
    exact hostRead_hostWrite_frameLen hp _ _

end Sys2Proof.Machine
end

section
/-!
The statements about access to the frame: which commands write it and where, and that accesses of every width, and the
host's, see the same bits.
-/

namespace Sys2Proof.Machine

/-- A successful Operation changes no frame bit at or above `FRAME_LEN` (rule R34). -/
theorem bit_of_ok_above {i : Instr} {p : Params} {b b' : Block} (h : operationOf i p b = .ok b') {a : Nat}
    (ha : b.frameLen.toNat ≤ a) : b'.bit a = b.bit a := by
  obtain ⟨-, -, hepoch, -⟩ := operation_keeps h
  unfold Block.bit
  obtain hframe | ⟨pos, bs, hframe, hbound, -⟩ := operation_frame h <;> rw [hepoch, hframe]
  exact frameBit_writeBits_out (.inr (hbound.trans ha))

/-- Settles O18: a fault leaves the frame alone, and a success leaves it or is a listed command that writes consecutive
bits below `FRAME_LEN`. -/
theorem onlyListedCommandsWriteTheFrame : Obligations.OnlyListedCommandsWriteTheFrame := by
  intro i s t h
  obtain ⟨f, rfl⟩ | ⟨b, hop, rfl⟩ := exec_cases h
  · exact ⟨fun _ => rfl, fun _ _ => rfl⟩
  · refine ⟨fun hnot => ?_, fun a ha => bit_of_ok_above hop ha⟩
    obtain hframe | ⟨_, _, -, -, hwrites⟩ := operation_frame hop
    · exact hframe
    · exact absurd hwrites hnot

/-- Settles O44: the sum of rule R11 splits at the border of the two fields, and the host's octet is eight frame bits. -/
theorem mixedWidthAccessSeesTheSameBits : Obligations.MixedWidthAccessSeesTheSameBits :=
  ⟨fieldValue_add, octet_toNat⟩

end Sys2Proof.Machine
end

section
/-!
The decoder and the encoder undo each other: a word decodes to a command exactly when the command is well formed and the
word is its encoding. From this one equivalence come the statements about the command word.
-/

namespace Sys2Proof.Machine

/-! ## The fields of a word (rule R61) -/

@[simp] theorem opcField_encode (i : Instr) : opcField (encode i) = opcOf i :=
  (Laws.EncodingFields.fields_append _ _).1

@[simp] theorem argField_encode (i : Instr) : argField (encode i) = argOf i :=
  (Laws.EncodingFields.fields_append _ _).2

theorem opcField_append_argField (c : CommandWord) : opcField c ++ argField c = c := by
  ext k hk
  simp only [opcField, argField, BitVec.getElem_append, BitVec.getElem_extractLsb', Nat.zero_add]
  split
  · exact BitVec.getLsbD_eq_getElem hk
  · rw [Nat.add_sub_cancel' (by omega)]
    exact BitVec.getLsbD_eq_getElem hk

/-- A word whose two fields are those of a command is the command's word. -/
theorem encode_of_fields {i : Instr} {c : CommandWord} (hopc : (opcField c).toNat = (opcOf i).toNat)
    (harg : argField c = argOf i) : encode i = c := by
  rw [encode, ← BitVec.eq_of_toNat_eq hopc, ← harg, opcField_append_argField]

/-! ## What a row of the opcode map accepts (rule R62) -/

theorem decodeN_eq_ok {i j : Instr} {arg : BitVec 8} (h : decodeN i arg = .ok j) : arg = 0#8 ∧ i = j := by
  unfold decodeN at h
  split_ifs at h with harg
  exact ⟨harg, Except.ok.inj h⟩

theorem decodeW_eq_ok {mk : BitVec 8 → Instr} {j : Instr} {arg : BitVec 8} (h : decodeW mk arg = .ok j) :
    widthLegal arg = true ∧ mk arg = j := by
  unfold decodeW at h
  split_ifs at h with harg
  exact ⟨harg, Except.ok.inj h⟩

/-- A format N row accepts the word of its command alone. -/
theorem decodeN_sound {i j : Instr} {c : CommandWord} (h : decodeN i (argField c) = .ok j)
    (hopc : (opcField c).toNat = (opcOf i).toNat) (harg : argOf i = 0#8) (hwf : i.wf = true) :
    j.wf = true ∧ encode j = c := by
  obtain ⟨hzero, rfl⟩ := decodeN_eq_ok h
  exact ⟨hwf, encode_of_fields hopc (hzero.trans harg.symm)⟩

/-! ## The decoder and the encoder -/

theorem decode_encode {i : Instr} (h : i.wf = true) : decode (encode i) = .ok i := by
  unfold decode
  rw [opcField_encode, argField_encode]
  cases i with
  | rdf w | wrf w => exact if_pos h
  | _ => rfl

theorem decode_sound {c : CommandWord} {i : Instr} (h : decode c = .ok i) : i.wf = true ∧ encode i = c := by
  unfold decode at h
  split at h
  case h_2 hopc | h_3 hopc =>
    obtain ⟨hwidth, rfl⟩ := decodeW_eq_ok h
    exact ⟨hwidth, encode_of_fields hopc rfl⟩
  case h_22 => cases h
  all_goals rename_i hopc; exact decodeN_sound h hopc rfl rfl

/-- Rules R63 and R66: a word selects a command exactly when it is the word of that command. -/
theorem decode_eq_ok_iff {c : CommandWord} {i : Instr} : decode c = .ok i ↔ i.wf = true ∧ encode i = c :=
  ⟨decode_sound, fun ⟨hwf, hword⟩ => hword ▸ decode_encode hwf⟩

theorem encode_injOn_wf : Set.InjOn encode {i | i.wf = true} := fun _ hi _ hj h =>
  Except.ok.inj ((decode_encode hi).symm.trans ((congrArg decode h).trans (decode_encode hj)))

/-! ## Counting the words of rule R66 -/

/-- As many words decode into a set of commands as the set has well-formed members. -/
theorem ncard_decode_mem (S : Set Instr) :
    {c : CommandWord | ∃ i ∈ S, decode c = .ok i}.ncard = {i | i ∈ S ∧ i.wf = true}.ncard := by
  have himage : {c : CommandWord | ∃ i ∈ S, decode c = .ok i} = encode '' {i | i ∈ S ∧ i.wf = true} := by
    ext c
    simp only [decode_eq_ok_iff, Set.mem_ofPred_eq, Set.mem_image, and_assoc]
  rw [himage, Set.InjOn.ncard_image (encode_injOn_wf.mono fun _ hi => hi.2)]

/-- The commands of format N, those without an argument (rule R63). -/
def formatN : Finset Instr :=
  {.nop, .seg, .l8m, .svcRd, .rejWr, .sresRd, .randWr, .randRd, .randExp, .nnWr, .nnRd, .a7Enc, .a7Dec, .tztWr, .tztRd,
    .bcdEnc, .bcdDec, .smEnc, .smDec}

theorem formatN_card : formatN.card = 19 := rfl

/-- The commands of format W with the constructor `mk` and a legal width. -/
def formatW (mk : BitVec 8 → Instr) : Set Instr := mk '' {w | widthLegal w = true}

theorem ncard_formatW {mk : BitVec 8 → Instr} (hmk : mk.Injective) : (formatW mk).ncard = 64 := by
  rw [formatW, Set.ncard_image_of_injective _ hmk, Set.ncard_eq_toFinset_card']
  decide

theorem rdf_injective : Instr.rdf.Injective := fun _ _ => Instr.rdf.inj

theorem wrf_injective : Instr.wrf.Injective := fun _ _ => Instr.wrf.inj

theorem setOf_wf : {i : Instr | i.wf = true} = ↑formatN ∪ (formatW .rdf ∪ formatW .wrf) := by
  ext i
  cases i with
  | rdf w | wrf w => simp [formatN, formatW, Instr.wf, widthLegal]
  | _ => simp [formatN, formatW, Instr.wf]

theorem ncard_wf : {i : Instr | i.wf = true}.ncard = 147 := by
  have hrw : Disjoint (formatW .rdf) (formatW .wrf) := by
    simp [formatW, Set.disjoint_left]
  have hn : Disjoint (formatN : Set Instr) (formatW .rdf ∪ formatW .wrf) := by
    simp [formatN, formatW, Set.disjoint_left]
  have hfin (mk : BitVec 8 → Instr) : (formatW mk).Finite := (Set.toFinite _).image mk
  rw [setOf_wf, Set.ncard_union_eq hn formatN.finite_toSet ((hfin _).union (hfin _)),
    Set.ncard_union_eq hrw (hfin _) (hfin _), Set.ncard_coe_finset, formatN_card, ncard_formatW rdf_injective,
    ncard_formatW wrf_injective]

/-- The 64 words of one format W row. -/
theorem ncard_decode_formatW {mk : BitVec 8 → Instr} (hmk : mk.Injective)
    (hwf : ∀ w, (mk w).wf = widthLegal w) : {c : CommandWord | ∃ w, decode c = .ok (mk w)}.ncard = 64 := by
  have hcount := ncard_decode_mem (Set.range mk)
  have hlegal : {i | i ∈ Set.range mk ∧ i.wf = true} = formatW mk := by
    ext i
    simp only [formatW, Set.mem_ofPred_eq, Set.mem_image, Set.mem_range]
    constructor
    · rintro ⟨⟨w, rfl⟩, h⟩
      exact ⟨w, hwf w ▸ h, rfl⟩
    · rintro ⟨w, h, rfl⟩
      exact ⟨⟨w, rfl⟩, (hwf w).trans h⟩
  rw [hlegal, ncard_formatW hmk] at hcount
  simpa only [Set.exists_range_iff] using hcount

theorem ncard_decode_ok : {c : CommandWord | ∃ i, decode c = .ok i}.ncard = 147 := by
  simpa [ncard_wf] using ncard_decode_mem Set.univ

/-- The illegal words are the others of the 65536. -/
theorem ncard_decode_error : {c : CommandWord | ∃ r, decode c = .error r}.ncard = 65389 := by
  have hcompl : {c : CommandWord | ∃ r, decode c = .error r} = {c | ∃ i, decode c = .ok i}ᶜ := by
    ext c
    cases h : decode c <;> simp [h]
  have hwords : Nat.card CommandWord = 65536 := by
    rw [Nat.card_eq_fintype_card, ← FinEnum.card_eq_fintypeCard, FinEnum.card_bitVec]
    rfl
  rw [hcompl, Set.ncard_compl, hwords, ncard_decode_ok]

/-! ## The statements -/

/-- Settles O1: the fields of the word are the opcode and the argument that the rows of the map read. -/
theorem decodeUndoesEncode : Obligations.DecodeUndoesEncode := fun _ => decode_encode

/-- Settles O2: a word that decodes is the word of that command alone, one that does not is the word of no command, and
the counts are those of the well-formed commands. -/
theorem everyWordIsOneCommandOrIllegal : Obligations.EveryWordIsOneCommandOrIllegal := by
  refine ⟨fun c => ?_, ncard_decode_formatW rdf_injective fun _ => rfl,
    ncard_decode_formatW wrf_injective fun _ => rfl, ncard_decode_ok, ncard_decode_error⟩
  cases h : decode c with
  | ok i =>
    obtain ⟨hwf, hword⟩ := decode_sound h
    exact .inl ⟨i, rfl, hwf, hword, fun j hj hjc => encode_injOn_wf hj hwf (hjc.trans hword.symm)⟩
  | error r =>
    refine .inr ⟨⟨r, rfl⟩, fun j hj hjc => ?_⟩
    have hok : decode c = .ok j := decode_eq_ok_iff.2 ⟨hj, hjc⟩
    cases h.symm.trans hok

/-- Settles O4: each listed word is the word of its command. -/
theorem listedWordsDecode : Obligations.ListedWordsDecode :=
  ⟨decode_encode (i := .nop) rfl, decode_encode (i := .rdf 4#8) rfl, decode_encode (i := .wrf 64#8) rfl,
    decode_encode (i := .l8m) rfl, decode_encode (i := .rejWr) rfl, decode_encode (i := .randExp) rfl,
    decode_encode (i := .nnWr) rfl, decode_encode (i := .a7Dec) rfl, decode_encode (i := .tztRd) rfl,
    decode_encode (i := .smDec) rfl⟩

end Sys2Proof.Machine
end

section
/-!
`Normalise` of rule R72 by address: where each bit of a complete group goes, that the rest stays, and that a second
`Normalise` of the window undoes the first.
-/

namespace Sys2Proof.Machine

/-- Bit `t` of a complete group is the old bit `7 - t` of it. -/
theorem frameBit_normalise_in {e : Nat} {f : Memory 8} {base len m t : Nat} (hm : m < len / 8) (ht : t < 8) :
    frameBit e (normalise e f base len) (base + 8 * m + t) = frameBit e f (base + 8 * m + 7 - t) := by
  have hold : base + octetReversed (base + 8 * m + t - base) = base + 8 * m + 7 - t := by
    rw [Nat.add_assoc, Nat.add_sub_cancel_left, octetReversed_at ht]; omega
  rw [frameBit_normalise, if_pos (by omega), hold]

/-- The bits outside the complete groups stay. -/
theorem frameBit_normalise_out {e : Nat} {f : Memory 8} {base len a : Nat} (h : a < base ∨ base + 8 * (len / 8) ≤ a) :
    frameBit e (normalise e f base len) a = frameBit e f a := by
  rw [frameBit_normalise, if_neg (by omega)]

/-- A complete group is mapped to itself, so a second reversal puts every bit back. -/
theorem frameBit_normalise_normalise (e : Nat) (f : Memory 8) (base len a : Nat) :
    frameBit e (normalise e (normalise e f base len) base len) a = frameBit e f a := by
  by_cases ha : base ≤ a ∧ a < base + 8 * (len / 8)
  · have hmirror : octetReversed (a - base) < 8 * (len / 8) := octetReversed_lt (by omega)
    rw [frameBit_normalise, if_pos ha, frameBit_normalise, if_pos (by omega), Nat.add_sub_cancel_left,
      octetReversed_invol, Nat.add_sub_cancel' ha.1]
  · rw [frameBit_normalise_out (by omega), frameBit_normalise_out (by omega)]

/-- Settles O45, by the three facts about `Normalise` on frame memories. -/
theorem normaliseReversesEachOctet : Obligations.NormaliseReversesEachOctet := by
  rintro b _ _ base len rfl rfl
  exact ⟨fun _ _ => frameBit_normalise_in, fun _ => frameBit_normalise_out,
    frameBit_normalise_normalise b.epoch b.frame base len⟩

end Sys2Proof.Machine
end

section
/-!
The packed text from the primitives (rule R78): the reversed 7-bit fields and the zero field are the region `T` of rule
R90, and `Normalise` of that region is its step 3.
-/

namespace Sys2Proof.Machine

/-- `rev_w(v)` is the number of the bits of `v`, bit 0 first. -/
theorem revBits_eq_bitsNat (w v : Nat) : revBits w v = bitsNat ((List.range w).map v.testBit) := by
  rw [bitsNat_map_range, revBits, ← Finset.sum_range_reflect]
  refine Finset.sum_congr rfl fun j hj => ?_
  have hj := Finset.mem_range.1 hj
  rw [show w - 1 - (w - 1 - j) = j by omega]

/-- A reversed field puts the bits of its value on the wire bit 0 first (rule R9). -/
theorem fieldBits_revBits (w v : Nat) : fieldBits w (revBits w v) = (List.range w).map v.testBit := by
  refine List.map_congr_left fun j hj => ?_
  have hj := List.mem_range.1 hj
  rw [revBits_eq_bitsNat, bitsNat_map_range_testBit, show w - 1 - (w - 1 - j) = j by omega,
    decide_eq_true (by omega : w - 1 - j < w), Bool.true_and]

theorem fieldBits_zero (w : Nat) : fieldBits w 0 = List.replicate w false := by simp [fieldBits]

/-- The fields that rule R78 writes before `L8M`: every code reversed, then the spare bits. -/
def textFields (codes : List Code7) : List (Nat × Nat) :=
  codes.map (fun c => (7, revBits 7 c.toNat)) ++ [(spareCount codes.length, 0)]

/-- The fields of rule R78 are the region `T` of rule R90. -/
theorem memWriteFields_textFields (e : Nat) (f : Memory 8) (base : Nat) (codes : List Code7) :
    memWriteFields e f base (textFields codes) = frameWriteBits e f base (textStream codes) := by
  have hcode : ∀ c : Code7, fieldBits 7 (revBits 7 c.toNat) = codeBits c := fun c => fieldBits_revBits 7 c.toNat
  have hspare : [(spareCount codes.length, 0)].flatMap (fun x => fieldBits x.1 x.2) =
      List.replicate (spareCount codes.length) false := by
    rw [List.flatMap_singleton, fieldBits_zero]
  rw [memWriteFields_eq, textFields, List.flatMap_append, List.flatMap_map, hspare, textStream]
  simp only [hcode]

/-- `Normalise` of the region `T` is the packed text: step 3 of rule R90. -/
theorem frameBit_normalise_textStream (e : Nat) (f : Memory 8) (base : Nat) (codes : List Code7) (a : Nat) :
    frameBit e (normalise e (frameWriteBits e f base (textStream codes)) base
        (7 * codes.length + spareCount codes.length)) a =
      frameBit e (frameWriteBits e f base (pack7 codes)) a := by
  have hstream := textStream_length codes
  have hpack := pack7_length codes
  generalize hlen : 7 * codes.length + spareCount codes.length = len at hstream hpack ⊢
  have hgroups : 8 * (len / 8) = len := Nat.mul_div_cancel' (Nat.dvd_of_mod_eq_zero (hlen ▸ text_aligned _))
  by_cases ha : base ≤ a ∧ a < base + len
  · obtain ⟨i, rfl⟩ := Nat.exists_eq_add_of_le ha.1
    have hi : i < len := by omega
    have hmirror : octetReversed i < len := hgroups ▸ octetReversed_lt (hgroups.symm ▸ hi)
    calc frameBit e (normalise e (frameWriteBits e f base (textStream codes)) base len) (base + i)
        = frameBit e (frameWriteBits e f base (textStream codes)) (base + octetReversed i) := by
          rw [frameBit_normalise, if_pos (by omega), Nat.add_sub_cancel_left]
      _ = (textStream codes).getD (octetReversed i) false := frameBit_writeBits_in (hstream.symm ▸ hmirror)
      _ = (pack7 codes).getD i false := (pack7_getD (hlen.symm ▸ hi)).symm
      _ = frameBit e (frameWriteBits e f base (pack7 codes)) (base + i) :=
          (frameBit_writeBits_in (hpack.symm ▸ hi)).symm
  · rw [frameBit_normalise_out (by omega), frameBit_writeBits_out (by omega), frameBit_writeBits_out (by omega)]

/-- Settles O48: the fields make the region of rule R90, and `Normalise` makes the packed text of it. -/
theorem primitivesBuildThePackedText : Obligations.PrimitivesBuildThePackedText := by
  intro e f base codes a
  rw [← frameBit_normalise_textStream, ← memWriteFields_textFields, textFields]

end Sys2Proof.Machine
end

section
/-!
The frame primitives of 40_frame_primitives.md: the words of the two format W commands, how a command ends from the answer
of its Operation, and the answers of `RDF`, `WRF`, `SEG` and `L8M`, whose checks stand in the terms of the rules.
-/

namespace Sys2Proof.Machine

/-! ## The words -/

/-- A command word is its opcode's byte joined to its argument's (rule R61). -/
theorem append_eq_or_zeroExtend (opc arg : BitVec 8) : opc ++ arg = (opc ++ 0#8) ||| arg.zeroExtend 16 := by
  ext k hk
  simp only [BitVec.getElem_append, BitVec.getElem_or, BitVec.getElem_setWidth]
  by_cases hlow : k < 8
  · simp [hlow]
  · simp [hlow, BitVec.getLsbD_of_ge arg k (by omega)]

/-- A zero-extended byte is a word with the opcode 0x00, which takes no argument but 0x00 (rules R62, R65). -/
theorem decode_zeroExtend {arg : BitVec 8} (h : arg ≠ 0#8) : decode (arg.zeroExtend 16) = .error .argumentNotZero := by
  have hword : arg.zeroExtend 16 = 0#8 ++ arg := by rw [append_eq_or_zeroExtend]; simp
  obtain ⟨hopc, harg⟩ := Laws.EncodingFields.fields_append 0#8 arg
  rw [hword, decode, hopc, harg]
  exact if_neg h

theorem not_widthLegal_iff (w : BitVec 8) : (!widthLegal w) = true ↔ w.toNat = 0 ∨ 64 < w.toNat := by
  simp only [widthLegal, Bool.not_eq_true', decide_eq_false_iff_not]; omega

/-! ## The end of a command -/

theorem exec_of_error {i : Instr} {s : State} {c : FaultCode} (h : operationOf i s.params s.block = .error c) :
    exec i s = .next (s.raise c) := (exec_eq i s).trans (congrArg _ (command_of_error h))

theorem exec_of_ok {i : Instr} {s : State} {b : Block} (h : operationOf i s.params s.block = .ok b) :
    exec i s = .next { s with block := { b with status := 0#8 } } := (exec_eq i s).trans (congrArg _ (command_of_ok h))

/-! ## The Operations -/

section
variable (w : BitVec 8) (p : Params) (b : Block)

theorem operationOf_rdf : operationOf (.rdf w) p b =
    if w.toNat = 0 ∨ 64 < w.toNat then .error .illegalCommand
    else if b.frameLen.toNat < b.cursor.toNat + w.toNat then .error .truncated
    else .ok { b.advance w.toNat with fval := BitVec.ofNat 64 (b.readAt 0 w.toNat) } := by
  simp only [operationOf, opRdf, not_widthLegal_iff, overrun_eq_true]

theorem operationOf_wrf : operationOf (.wrf w) p b =
    if w.toNat = 0 ∨ 64 < w.toNat then .error .illegalCommand
    else if 2 ^ w.toNat ≤ b.fval.toNat then .error .valueTooWide
    else if b.frameLen.toNat < b.cursor.toNat + w.toNat then .error .frameOverflow
    else .ok (b.writeFields [(w.toNat, b.fval.toNat)]) := by
  simp only [operationOf, opWrf, not_widthLegal_iff, overrun_eq_true]

theorem operationOf_seg : operationOf .seg p b =
    if b.frameLen.toNat < b.cursor.toNat + b.segLen.toNat then .error .badLength
    else .ok { b with segBase := b.cursor } := by
  simp only [operationOf, opSeg, overrun_eq_true]

theorem operationOf_l8m : operationOf .l8m p b =
    if b.frameLen.toNat < b.segBase.toNat + b.segLen.toNat then .error .badLength
    else .ok { b with frame := normalise b.epoch b.frame b.segBase.toNat b.segLen.toNat } := rfl

end

/-! ## The statements -/

/-- Settles O22: the Operation of `NOP` answers the block it is given, and a nonzero argument is illegal in its row. -/
theorem nopOnlyClearsStatus : Obligations.NopOnlyClearsStatus :=
  ⟨rfl, fun _ => exec_of_ok rfl, fun _ s harg => issue_of_error (decode_zeroExtend harg) s⟩

/-- Settles O25, by the two answers of the Operation. -/
theorem segLatchesTheWindowBase : Obligations.SegLatchesTheWindowBase := by
  refine ⟨rfl, fun s => ?_⟩
  have hop := operationOf_seg s.params s.block
  split_ifs at hop ⊢
  · exact exec_of_error hop
  · exact exec_of_ok hop

/-- Settles O23: within the frame the field fits `FVAL` and the sum fits `CURSOR`. -/
theorem rdfReadsAFieldAtCursor : Obligations.RdfReadsAFieldAtCursor := by
  refine fun w s => ⟨append_eq_or_zeroExtend 0x01#8 w, ?_⟩
  have hop := operationOf_rdf w s.params s.block
  split_ifs at hop ⊢ with hwidth hover
  · exact exec_of_error hop
  · exact exec_of_error hop
  · exact ⟨_, exec_of_ok hop, rfl, toNat_ofNat_readAt (by omega) 0, cursor_sum_toNat (by omega)⟩

/-- Settles O24: one field written at `CURSOR` within the frame. -/
theorem wrfWritesAFieldAtCursor : Obligations.WrfWritesAFieldAtCursor := by
  refine fun w s => ⟨append_eq_or_zeroExtend 0x02#8 w, ?_⟩
  have hop := operationOf_wrf w s.params s.block
  have hsum : ([(w.toNat, s.block.fval.toNat)].map Prod.fst).sum = w.toNat := by simp
  split_ifs at hop ⊢ with hwidth hwide hover
  · exact exec_of_error hop
  · exact exec_of_error hop
  · exact exec_of_error hop
  · exact ⟨_, exec_of_ok hop, rfl, holdsField_writeFields (xs := []) (ys := []) (k := 0) rfl rfl,
      frameKept_writeFields hsum, cursor_writeFields hsum (by omega)⟩

/-- Settles O26: `L8M` is `Normalise` of the window, which it leaves where it was, so a second one undoes the first. -/
theorem l8mReversesTheOctetsOfTheWindow : Obligations.L8mReversesTheOctetsOfTheWindow := by
  refine ⟨rfl, fun s => ?_⟩
  split_ifs with hover
  · exact exec_of_error ((operationOf_l8m ..).trans (if_pos hover))
  · exact ⟨_, exec_of_ok ((operationOf_l8m ..).trans (if_neg hover)), rfl, fun _ _ => frameBit_normalise_in,
      fun _ => frameBit_normalise_out, _, exec_of_ok ((operationOf_l8m ..).trans (if_neg hover)),
      frameBit_normalise_normalise _ _ _ _⟩

end Sys2Proof.Machine
end

section
/-!
The 7-bit alphabet by command (rules R87, R88), and the packed text of rules R89 and R90 by its bits.
-/

namespace Sys2Proof.Machine

/-! ## `A7.ENC` and `A7.DEC` -/

section
variable {p : Params} {b b' : Block}

theorem operationOf_a7Dec : operationOf .a7Dec p b = .ok { b with aChar := dec7 p b.aCode } := rfl

theorem operationOf_a7Enc_of_none (h : enc7 p b.aChar = none) : operationOf .a7Enc p b = .error .unmappableChar := by
  simp only [operationOf, opA7Enc, h]

theorem operationOf_a7Enc_of_some {code : Code7} (h : enc7 p b.aChar = some code) :
    operationOf .a7Enc p b = .ok { b with aCode := code } := by
  simp only [operationOf, opA7Enc, h]

/-- A successful `A7.ENC` found a code of the character. -/
theorem operationOf_a7Enc_ok (h : operationOf .a7Enc p b = .ok b') :
    ∃ code, alphabetMaps p code b.aChar ∧ b' = { b with aCode := code } := by
  cases hcode : enc7 p b.aChar with
  | none => cases (operationOf_a7Enc_of_none hcode).symm.trans h
  | some code =>
    cases (operationOf_a7Enc_of_some hcode).symm.trans h
    exact ⟨code, enc7_maps hcode, rfl⟩

end

/-- Settles O33: `enc7` is undefined without a code, and with an injective alphabet it answers the code. -/
theorem a7EncFindsTheCode : Obligations.A7EncFindsTheCode :=
  ⟨rfl, fun _ => ⟨fun hnone => exec_of_error (operationOf_a7Enc_of_none ((enc7_eq_none_iff _ _).2 hnone)),
    fun _ hmaps hinj => exec_of_ok (operationOf_a7Enc_of_some (enc7_of_maps hinj hmaps))⟩⟩

/-- Settles O34: `A_CHAR` holds the character of `A_CODE` after either command, and each command computes again what
stands there. -/
theorem a7DecLooksUpTheCharacter : Obligations.A7DecLooksUpTheCharacter := by
  refine ⟨rfl, fun s => ⟨dec7 s.params s.block.aCode, alphabetMaps_dec7 _ _, exec_of_ok operationOf_a7Dec,
    fun hinj => ?_, fun t ht hstatus => ?_⟩⟩
  · have hcode : enc7 s.params (dec7 s.params s.block.aCode) = some s.block.aCode :=
      enc7_of_maps hinj (alphabetMaps_dec7 _ _)
    rw [exec_of_ok (operationOf_a7Enc_of_some hcode)]
  · obtain ⟨b, hop, rfl⟩ := ok_of_status ht hstatus
    obtain ⟨code, hmaps, rfl⟩ := operationOf_a7Enc_ok hop
    rw [exec_of_ok operationOf_a7Dec, (alphabetMaps_iff _ _ _).1 hmaps]

/-! ## The packed text -/

/-- Settles O46: the residues of `7 * sz` and `sz` modulo 8 are opposite. -/
theorem spareCountAlignsTheText : Obligations.SpareCountAlignsTheText := by
  intro sz
  have hspare := spareCount_eq sz
  have haligned := text_aligned sz
  exact ⟨by rw [spareCount, Nat.mul_comm], by omega, by rwa [Nat.mul_comm], hspare⟩

/-- Bit `i` of the region `T` of rule R90 stands in the packed text where the reversal of its octet takes it. -/
theorem pack7_getD_octetReversed {codes : List Code7} {i : Nat}
    (h : i < 7 * codes.length + spareCount codes.length) :
    (pack7 codes).getD (octetReversed i) false = (textStream codes).getD i false := by
  have haligned := text_aligned codes.length
  have hmirror := octetReversed_lt (i := i) (n := (7 * codes.length + spareCount codes.length) / 8) (by omega)
  rw [pack7_getD (by omega), octetReversed_invol]

/-- The mirror place of bit `t` of octet `m`, in the spelling of rules R72 and R94. -/
theorem octetReversed_at_sub {m t : Nat} (h : t < 8) : octetReversed (8 * m + t) = 8 * m + 7 - t := by
  rw [octetReversed_at h]; omega

/-- A position of a code of the list is a position of the region. -/
theorem code_position_lt {codes : List Code7} {k j : Nat} {code : Code7} (hk : codes[k]? = some code) (hj : j < 7) :
    7 * k + j < 7 * codes.length + spareCount codes.length := by
  obtain ⟨hlt, -⟩ := List.getElem?_eq_some_iff.1 hk
  omega

/-- `Unpack7` of a frame that holds the packed text gives every code back. -/
theorem unpackCode_pack7 (e : Nat) (f : Memory 8) (base : Nat) {codes : List Code7} {k : Nat} {code : Code7}
    (hk : codes[k]? = some code) : unpackCode e (frameWriteBits e f base (pack7 codes)) base k = code := by
  refine BitVec.eq_of_getLsbD_eq fun j hj => ?_
  rw [unpackCode_getLsbD e _ base k hj, frameBit_pack7 e f base codes (code_position_lt hk hj), textStream_code hk hj]

/-- Settles O47: `W` is the packed text by position, the mirror image in each octet of the region `T`, whose bits are
the codes' and then zeros. -/
theorem packedTextUnpacks : Obligations.PackedTextUnpacks := by
  intro codes
  refine ⟨fun i => (pack7 codes).getD i false, pack7_length codes, fun i hi => ?_, ?_, ?_,
    fun e f base _ _ hk => unpackCode_pack7 e f base hk⟩
  · have hlt : i < (pack7 codes).length := (pack7_length codes).symm ▸ hi
    exact (List.getElem?_eq_getElem hlt).trans (congrArg some (List.getD_eq_getElem _ _ hlt).symm)
  · intro m t k j ht hpos hj code hk
    change (pack7 codes).getD (8 * m + 7 - t) false = code.getLsbD j
    rw [← octetReversed_at_sub ht, hpos, pack7_getD_octetReversed (code_position_lt hk hj), textStream_code hk hj]
  · intro m t j ht hpos hj
    change (pack7 codes).getD (8 * m + 7 - t) false = false
    rw [← octetReversed_at_sub ht, hpos, pack7_getD_octetReversed (by omega), textStream_spare]

end Sys2Proof.Machine
end

section
/-!
`NN.WR` (rule R93): the text a name has in its alphabet, the checks before it, and the element that the command leaves
in the frame.
-/

namespace Sys2Proof.Machine

/-! ## The text of the name in the registers -/

/-- The spare count and the text of the name in the registers, in the alphabet that `NN_ALPHA` selects. -/
inductive NameText (p : Params) (b : Block) : Nat → List Bool → Prop
  | packed {codes : List Code7} : b.nnAlpha = 0#3 → enc7All p (b.chars b.nnLen.toNat) = some codes →
      NameText p b (spareCount b.nnLen.toNat) (pack7 codes)
  | wide : b.nnAlpha ≠ 0#3 → NameText p b 0 (wideText (b.chars b.nnLen.toNat))

section
variable {p : Params} {b : Block} {spare : Nat} {text : List Bool}

theorem NameText.spare_eq (h : NameText p b spare text) :
    spare = if b.nnAlpha = 0#3 then spareCount b.nnLen.toNat else 0 := by
  cases h with
  | packed halpha _ => rw [if_pos halpha]
  | wide halpha => rw [if_neg halpha]

theorem NameText.length_eq (h : NameText p b spare text) :
    text.length = if b.nnAlpha = 0#3 then 7 * b.nnLen.toNat + spare else 16 * b.nnLen.toNat := by
  cases h with
  | packed halpha hcodes =>
    obtain ⟨hlength, -⟩ := enc7All_some hcodes
    rw [if_pos halpha, pack7_length, hlength, chars_length]
  | wide halpha => rw [if_neg halpha, wideText_length, chars_length]

/-- Either text ends at an octet. -/
theorem NameText.length_mod (h : NameText p b spare text) : text.length % 8 = 0 := by
  have hspare := spareCount_eq b.nnLen.toNat ▸ h.spare_eq
  have hlength := h.length_eq
  split_ifs at hspare hlength <;> omega

theorem NameText.spare_lt (h : NameText p b spare text) : spare < 8 := by
  have hspare := spareCount_eq b.nnLen.toNat ▸ h.spare_eq
  split_ifs at hspare <;> omega

end

theorem mem_chars {b : Block} {sz : Nat} {ch : CharUnit} : ch ∈ b.chars sz ↔ ∃ k < sz, b.char k = ch := by
  simp [Block.chars]

/-- A character of the name in the registers has no code of the alphabet it is to be written in. -/
def Block.unmappable (p : Params) (b : Block) : Prop :=
  b.nnAlpha = 0#3 ∧ ∃ k < b.nnLen.toNat, ∀ code, ¬ alphabetMaps p code (b.char k)

theorem enc7All_chars_eq_none_iff (p : Params) (b : Block) (sz : Nat) :
    enc7All p (b.chars sz) = none ↔ ∃ k < sz, ∀ code, ¬ alphabetMaps p code (b.char k) := by
  rw [enc7All_eq_none_iff]
  constructor
  · rintro ⟨ch, hmem, hnone⟩
    obtain ⟨k, hk, rfl⟩ := mem_chars.1 hmem
    exact ⟨k, hk, hnone⟩
  · rintro ⟨k, hk, hnone⟩
    exact ⟨b.char k, mem_chars.2 ⟨k, hk, rfl⟩, hnone⟩

theorem exists_nameText {p : Params} {b : Block} (h : ¬ b.unmappable p) : ∃ spare text, NameText p b spare text := by
  by_cases halpha : b.nnAlpha = 0#3
  · obtain ⟨codes, hcodes⟩ := Option.ne_none_iff_exists'.1
      fun hnone => h ⟨halpha, (enc7All_chars_eq_none_iff p b _).1 hnone⟩
    exact ⟨_, _, .packed halpha hcodes⟩
  · exact ⟨_, _, .wide halpha⟩

/-! ## The Operation -/

/-- The block with the element of a spare count and a text written at `CURSOR`. -/
def Block.emitted (b : Block) (spare : Nat) (text : List Bool) : Block :=
  { b.advance (8 + text.length) with
    frame := frameWriteBits b.epoch
      (memWrite b.epoch b.frame b.cursor.toNat 8 (nnHeader b.nnAlpha b.nnCi spare).toNat) (b.cursor.toNat + 8) text
    nnSpare := BitVec.ofNat 3 spare }

section
variable {p : Params} {b b' : Block} {spare : Nat} {text : List Bool}

theorem nnEmit_of_overrun (h : b.frameLen.toNat < b.cursor.toNat + (8 + text.length)) :
    nnEmit b spare text = .error .frameOverflow := if_pos (overrun_eq_true.2 h)

theorem nnEmit_of_fits (h : b.cursor.toNat + (8 + text.length) ≤ b.frameLen.toNat) :
    nnEmit b spare text = .ok (b.emitted spare text) := by
  rw [nnEmit, overrun_eq_false.2 h]
  rfl

theorem operationOf_nnWr_of_reserved (h : b.nnAlpha ≠ 0#3 ∧ b.nnAlpha ≠ p.alphaSelWide) :
    operationOf .nnWr p b = .error .reservedAlphabet := if_pos h

theorem operationOf_nnWr_of_tooLong (hsel : ¬ (b.nnAlpha ≠ 0#3 ∧ b.nnAlpha ≠ p.alphaSelWide))
    (hlen : p.nnMaxChars < b.nnLen.toNat) : operationOf .nnWr p b = .error .textOverflow :=
  (if_neg hsel).trans (if_pos hlen)

theorem operationOf_nnWr_of_unmappable (hsel : ¬ (b.nnAlpha ≠ 0#3 ∧ b.nnAlpha ≠ p.alphaSelWide))
    (hlen : ¬ p.nnMaxChars < b.nnLen.toNat) (h : b.unmappable p) :
    operationOf .nnWr p b = .error .unmappableChar := by
  obtain ⟨halpha, hnone⟩ := h
  refine (if_neg hsel).trans ((if_neg hlen).trans ((if_pos halpha).trans ?_))
  rw [(enc7All_chars_eq_none_iff p b _).2 hnone]

theorem operationOf_nnWr_of_text (hsel : ¬ (b.nnAlpha ≠ 0#3 ∧ b.nnAlpha ≠ p.alphaSelWide))
    (hlen : ¬ p.nnMaxChars < b.nnLen.toNat) (h : NameText p b spare text) :
    operationOf .nnWr p b = nnEmit b spare text := by
  cases h with
  | packed halpha hcodes =>
    refine (if_neg hsel).trans ((if_neg hlen).trans ((if_pos halpha).trans ?_))
    rw [hcodes]
  | wide halpha => exact (if_neg hsel).trans ((if_neg hlen).trans (if_neg halpha))

/-- A successful `NN.WR` passed its checks and wrote the element. -/
theorem operationOf_nnWr_ok (h : operationOf .nnWr p b = .ok b') :
    ¬ (b.nnAlpha ≠ 0#3 ∧ b.nnAlpha ≠ p.alphaSelWide) ∧ b.nnLen.toNat ≤ p.nnMaxChars ∧ ∃ spare text,
      NameText p b spare text ∧ b.cursor.toNat + (8 + text.length) ≤ b.frameLen.toNat ∧
        b' = b.emitted spare text := by
  obtain ⟨hsel, hrest⟩ := passed_of_ok h
  obtain ⟨hlen, -⟩ := passed_of_ok hrest
  by_cases hmap : b.unmappable p
  · cases (operationOf_nnWr_of_unmappable hsel hlen hmap).symm.trans h
  · obtain ⟨spare, text, htext⟩ := exists_nameText hmap
    obtain ⟨hfits, -⟩ := nnEmit_ok ((operationOf_nnWr_of_text hsel hlen htext).symm.trans h)
    cases ((operationOf_nnWr_of_text hsel hlen htext).trans (nnEmit_of_fits hfits)).symm.trans h
    exact ⟨hsel, Nat.le_of_not_lt hlen, spare, text, htext, hfits, rfl⟩

end

/-! ## The element in the frame -/

/-- Rule R94's stream position is the mirror place in the octet (rule R72). -/
theorem streamBit_eq (b : Block) (base i : Nat) : streamBit b base i = b.bit (base + octetReversed i) := by
  unfold streamBit octetReversed
  congr 1
  omega

/-- The frame of `b'` holds at `CURSOR` of `b` the element of the name in the registers of `b`, `len` bits long with
`spare` spare bits; the other frame bits are those of `b`. -/
structure NameWritten (p : Params) (b b' : Block) (spare len : Nat) : Prop where
  header : holdsField b' b.cursor.toNat 8 (128 + 16 * b.nnAlpha.toNat + 8 * b.nnCi.toNat + spare)
  codes : b.nnAlpha = 0#3 → ∀ k < b.nnLen.toNat, ∃ code, alphabetMaps p code (b.char k) ∧
    ∀ j < 7, streamBit b' (b.cursor.toNat + 8) (7 * k + j) = code.getLsbD j
  zeros : b.nnAlpha = 0#3 → ∀ j < spare, streamBit b' (b.cursor.toNat + 8) (7 * b.nnLen.toNat + j) = false
  wide : b.nnAlpha ≠ 0#3 → ∀ k < b.nnLen.toNat,
    holdsField b' (b.cursor.toNat + 8 + 16 * k) 16 (b.char k).toNat
  outside : frameKeptOutside b b' b.cursor.toNat len

section
variable {p : Params} {b : Block} {spare : Nat} {text : List Bool}

theorem emitted_bit_header (spare : Nat) (text : List Bool) {j : Nat} (hj : j < 8) :
    (b.emitted spare text).bit (b.cursor.toNat + j) =
      (nnHeader b.nnAlpha b.nnCi spare).toNat.testBit (8 - 1 - j) :=
  (frameBit_writeBits_out (by omega)).trans (frameBit_memWrite_in hj)

theorem emitted_bit_outside {a : Nat} (ha : a < b.cursor.toNat ∨ b.cursor.toNat + (8 + text.length) ≤ a) :
    (b.emitted spare text).bit a = b.bit a :=
  (frameBit_writeBits_out (by omega)).trans (frameBit_memWrite_out (by omega))

theorem emitted_streamBit_pack7 {codes : List Code7} {i : Nat}
    (h : i < 7 * codes.length + spareCount codes.length) :
    streamBit (b.emitted spare (pack7 codes)) (b.cursor.toNat + 8) i = (textStream codes).getD i false :=
  (streamBit_eq _ _ i).trans (frameBit_pack7 _ _ _ codes h)

theorem emitted_holds_wideText {chs : List CharUnit} {k : Nat} {ch : CharUnit} (hk : chs[k]? = some ch) :
    holdsField (b.emitted spare (wideText chs)) (b.cursor.toNat + 8 + 16 * k) 16 ch.toNat := by
  intro j hj
  obtain ⟨hlt, -⟩ := List.getElem?_eq_some_iff.1 hk
  rw [Nat.add_assoc _ _ j]
  exact (frameBit_writeBits_in (by rw [wideText_length]; omega)).trans (wideText_getD hk hj)

theorem nameWritten_emitted (h : NameText p b spare text) :
    NameWritten p b (b.emitted spare text) spare (8 + text.length) where
  header j hj := by rw [emitted_bit_header spare text hj, nnHeader_toNat _ _ h.spare_lt]
  outside _ ha := emitted_bit_outside ha
  codes halpha k hk := by
    cases h with
    | wide hwide => exact absurd halpha hwide
    | packed _ hcodes =>
      obtain ⟨-, hcode⟩ := enc7All_some hcodes
      obtain ⟨code, hget, hmaps⟩ := hcode k _ (chars_getElem? b hk)
      refine ⟨code, hmaps, fun j hj => ?_⟩
      rw [emitted_streamBit_pack7 (code_position_lt hget hj), textStream_code hget hj]
  zeros halpha j hj := by
    cases h with
    | wide hwide => exact absurd halpha hwide
    | @packed codes _ hcodes =>
      have hlength : codes.length = b.nnLen.toNat := (enc7All_some hcodes).1.trans (chars_length b _)
      rw [← hlength] at hj ⊢
      rw [emitted_streamBit_pack7 (by omega), textStream_spare]
  wide halpha k hk := by
    cases h with
    | packed hdefault _ => exact absurd hdefault halpha
    | wide _ => exact emitted_holds_wideText (chars_getElem? b hk)

theorem emitted_nnSpare_toNat (h : NameText p b spare text) : (b.emitted spare text).nnSpare.toNat = spare :=
  Nat.mod_eq_of_lt h.spare_lt

end

/-- Settles O35: the checks in their order, then the element of the name's text. -/
theorem nnWrEncodesANetworkName : Obligations.NnWrEncodesANetworkName := by
  refine ⟨rfl, fun s sz spare len reserved tooLong unmappable hsz hreserved htooLong hunmappable hspare hlen => ?_⟩
  subst hsz
  rw [hreserved, htooLong, hunmappable]
  have element : ¬ s.block.unmappable s.params →
      ∃ text, NameText s.params s.block spare text ∧ 8 + text.length = len := by
    intro hmap
    obtain ⟨spare', text, htext⟩ := exists_nameText hmap
    obtain rfl : spare' = spare := htext.spare_eq.trans hspare.symm
    exact ⟨text, htext, by rw [hlen, htext.length_eq]⟩
  refine ⟨fun hres => exec_of_error (operationOf_nnWr_of_reserved hres),
    fun hsel hlong => exec_of_error (operationOf_nnWr_of_tooLong hsel hlong),
    fun hsel hlegal hnone => exec_of_error (operationOf_nnWr_of_unmappable hsel hlegal hnone),
    fun hsel hlegal hmap hover => ?_, fun hsel hlegal hmap hfits => ?_⟩
  · obtain ⟨text, htext, rfl⟩ := element hmap
    exact exec_of_error ((operationOf_nnWr_of_text hsel hlegal htext).trans (nnEmit_of_overrun hover))
  · obtain ⟨text, htext, rfl⟩ := element hmap
    obtain ⟨hheader, hcodes, hzeros, hwide, houtside⟩ := nameWritten_emitted htext
    exact ⟨_, exec_of_ok ((operationOf_nnWr_of_text hsel hlegal htext).trans (nnEmit_of_fits hfits)), rfl, hheader,
      fun halpha => ⟨hcodes halpha, hzeros halpha⟩, hwide, houtside, emitted_nnSpare_toNat htext,
      cursor_sum_toNat hfits⟩

end Sys2Proof.Machine
end

section
/-!
`NN.RD` (rule R94): what the header octet says of the text, the checks, and the characters and registers that the
command leaves.
-/

namespace Sys2Proof.Machine

/-! ## The header octet -/

theorem extractLsb'_low_toNat (hdr : Octet) : (hdr.extractLsb' 0 3).toNat = hdr.toNat % 8 := by
  rw [BitVec.extractLsb'_toNat, Nat.shiftRight_zero]

/-- The spare count that a header announces; a wide text has none. -/
def headerSpare (hdr : Octet) : Nat := if hdr.extractLsb' 4 3 = 0#3 then hdr.toNat % 8 else 0

/-- The number of characters of a text of `textBits` bits under a header. -/
def parsedLength (hdr : Octet) (textBits : Nat) : Nat :=
  if hdr.extractLsb' 4 3 = 0#3 then (textBits - headerSpare hdr) / 7 else textBits / 16

/-- A text of `textBits` bits under a header is no whole number of characters. -/
abbrev raggedText (hdr : Octet) (textBits : Nat) : Prop :=
  if hdr.extractLsb' 4 3 = 0#3 then textBits < headerSpare hdr ∨ (textBits - headerSpare hdr) % 7 ≠ 0
  else textBits % 16 ≠ 0

/-- The characters of a text of `textBits` bits under a header at `CURSOR`. -/
def parsedChars (p : Params) (b : Block) (hdr : Octet) (textBits : Nat) : List CharUnit :=
  if hdr.extractLsb' 4 3 = 0#3 then defaultChars p b (b.cursor.toNat + 8) (parsedLength hdr textBits)
  else wideChars b (b.cursor.toNat + 8) (parsedLength hdr textBits)

/-! ## The Operation -/

/-- The block with the name of a header and its characters in the registers, and `CURSOR` past the octets. -/
def Block.accepted (b : Block) (hdr : Octet) (octets : Nat) (chars : List CharUnit) : Block :=
  { b.advance (8 * octets) with
    nnExt := hdr.extractLsb' 7 1
    nnAlpha := hdr.extractLsb' 4 3
    nnCi := hdr.extractLsb' 3 1
    nnSpare := hdr.extractLsb' 0 3
    nnLen := BitVec.ofNat 8 chars.length
    charbuf := charsWrite b.charbuf 0 chars }

theorem nnAccept_eq (p : Params) (b : Block) (hdr : Octet) (octets : Nat) (chars : List CharUnit) :
    nnAccept p b hdr octets chars =
      if p.nnMaxChars < chars.length then .error .textOverflow else .ok (b.accepted hdr octets chars) := rfl

section
variable {p : Params} {b : Block} {hdr : Octet}

/-- The header that `NN.RD` reads is the one octet with the number of the field at `CURSOR`. -/
theorem readAt_header (h : hdr.toNat = fieldValue b b.cursor.toNat 8) : BitVec.ofNat 8 (b.readAt 0 8) = hdr :=
  BitVec.eq_of_toNat_eq ((toNat_ofNat_readAt (Nat.le_refl 8) 0).trans h.symm)

theorem parsedChars_length (p : Params) (b : Block) (hdr : Octet) (textBits : Nat) :
    (parsedChars p b hdr textBits).length = parsedLength hdr textBits := by
  unfold parsedChars
  split_ifs <;> simp [defaultChars, wideChars]

theorem operationOf_nnRd (h : hdr.toNat = fieldValue b b.cursor.toNat 8) :
    operationOf .nnRd p b =
      if b.nnOctets.toNat = 0 then .error .badLength
      else if b.frameLen.toNat < b.cursor.toNat + 8 * b.nnOctets.toNat then .error .truncated
      else if hdr.extractLsb' 4 3 ≠ 0#3 ∧ hdr.extractLsb' 4 3 ≠ p.alphaSelWide then .error .reservedAlphabet
      else if raggedText hdr (8 * (b.nnOctets.toNat - 1)) then .error .badLength
      else if p.nnMaxChars < parsedLength hdr (8 * (b.nnOctets.toNat - 1)) then .error .textOverflow
      else .ok (b.accepted hdr b.nnOctets.toNat (parsedChars p b hdr (8 * (b.nnOctets.toNat - 1)))) := by
  simp only [operationOf, opNnRd, readAt_header h, overrun_eq_true, extractLsb'_low_toNat, alphaSelDefault, nnAccept_eq]
  by_cases halpha : hdr.extractLsb' 4 3 = 0#3
  · simp [halpha, raggedText, headerSpare, parsedLength, parsedChars, defaultChars]
  · simp [halpha, raggedText, parsedLength, parsedChars, wideChars]

/-! ## The registers after it -/

theorem accepted_char (b : Block) (hdr : Octet) (octets : Nat) (chars : List CharUnit) (k : Nat) :
    (b.accepted hdr octets chars).char k = chars.getD k (b.char k) := by
  unfold Block.accepted Block.char
  simp only [read?_charsWrite, Nat.zero_le, true_and, Nat.zero_add, Nat.sub_zero, Block.advance_epoch]
  split_ifs with hk
  · simp [hk]
  · simp [Nat.le_of_not_lt hk]

theorem parsedChars_packed (halpha : hdr.extractLsb' 4 3 = 0#3) {textBits k : Nat} (hk : k < parsedLength hdr textBits)
    (ch : CharUnit) : (parsedChars p b hdr textBits).getD k ch =
      dec7 p (unpackCode b.epoch b.frame (b.cursor.toNat + 8) k) := by
  simp [parsedChars, halpha, defaultChars, hk]

theorem parsedChars_wide (halpha : hdr.extractLsb' 4 3 ≠ 0#3) {textBits k : Nat} (hk : k < parsedLength hdr textBits)
    (ch : CharUnit) : (parsedChars p b hdr textBits).getD k ch =
      BitVec.ofNat 16 (memRead b.epoch b.frame (b.cursor.toNat + 8 + 16 * k) 16) := by
  simp [parsedChars, halpha, wideChars, hk]

/-- The registers of `b'` hold a name of `sz` characters, read from the text after the header `hdr` at `CURSOR` of `b`;
the later characters are those of `b`. -/
structure NameParsed (p : Params) (b b' : Block) (hdr : Octet) (sz : Nat) : Prop where
  length : b'.nnLen.toNat = sz
  codes : hdr.extractLsb' 4 3 = 0#3 → ∀ k < sz, ∃ code : Code7,
    (∀ j < 7, code.getLsbD j = streamBit b (b.cursor.toNat + 8) (7 * k + j)) ∧ alphabetMaps p code (b'.char k)
  wide : hdr.extractLsb' 4 3 ≠ 0#3 → ∀ k < sz, (b'.char k).toNat = fieldValue b (b.cursor.toNat + 8 + 16 * k) 16
  later : ∀ k, sz ≤ k → b'.char k = b.char k

/-- Within a capacity of 255 the number of characters fits `NN_LEN`. -/
theorem nameParsed_accepted {textBits : Nat} (hp : p.wf) (hcap : parsedLength hdr textBits ≤ p.nnMaxChars)
    (octets : Nat) :
    NameParsed p b (b.accepted hdr octets (parsedChars p b hdr textBits)) hdr (parsedLength hdr textBits) where
  length := by
    obtain ⟨-, -, hmax, -⟩ := hp
    have hfits : parsedLength hdr textBits < 2 ^ 8 := by omega
    rw [Block.accepted, parsedChars_length, BitVec.toNat_ofNat, Nat.mod_eq_of_lt hfits]
  codes halpha k hk := by
    refine ⟨unpackCode b.epoch b.frame (b.cursor.toNat + 8) k, fun j hj => ?_, ?_⟩
    · rw [unpackCode_getLsbD _ _ _ _ hj, streamBit_eq]; rfl
    · rw [accepted_char, parsedChars_packed halpha hk]
      exact alphabetMaps_dec7 p _
  wide halpha k hk := by
    rw [accepted_char, parsedChars_wide halpha hk, memRead_eq, BitVec.toNat_ofNat,
      Nat.mod_eq_of_lt (fieldValue_lt b _ 16)]
  later k hk := by
    rw [accepted_char]
    exact List.getD_eq_default _ _ (hk.trans' (parsedChars_length p b hdr textBits).le)

end

/-- Settles O36: the checks in their order, then the header's fields and the characters of the text. -/
theorem nnRdParsesANetworkName : Obligations.NnRdParsesANetworkName := by
  refine ⟨rfl, ?_⟩
  rintro s hdr _ _ spare sz _ reserved badLength hp rfl rfl rfl hhdr hspare hsz hreserved hbad
  obtain rfl : spare = headerSpare hdr := hspare
  obtain rfl : sz = parsedLength hdr (8 * (s.block.nnOctets.toNat - 1)) := hsz
  have hbad : badLength ↔ raggedText hdr (8 * (s.block.nnOctets.toNat - 1)) := hbad
  have hop := operationOf_nnRd (p := s.params) hhdr
  rw [hreserved, hbad]
  refine ⟨fun hzero => ?_, fun hne hover => ?_, fun hne hfits =>
    ⟨fun hres => ?_, fun hsel hrag => ?_, fun hsel hrag hlong => ?_, fun hsel hrag hcap => ?_⟩⟩
  · rw [if_pos hzero] at hop; exact exec_of_error hop
  · rw [if_neg hne, if_pos hover] at hop; exact exec_of_error hop
  all_goals rw [if_neg hne, if_neg (Nat.not_lt.2 hfits)] at hop
  · rw [if_pos hres] at hop; exact exec_of_error hop
  · rw [if_neg hsel, if_pos hrag] at hop; exact exec_of_error hop
  · rw [if_neg hsel, if_neg hrag, if_pos hlong] at hop; exact exec_of_error hop
  · rw [if_neg hsel, if_neg hrag, if_neg (Nat.not_lt.2 hcap)] at hop
    obtain ⟨hlength, hcodes, hwide, hlater⟩ := nameParsed_accepted (b := s.block) hp hcap s.block.nnOctets.toNat
    exact ⟨_, exec_of_ok hop, rfl, hlength, hcodes, hwide, hlater, cursor_sum_toNat hfits⟩

end Sys2Proof.Machine
end

section
/-!
The round trip of the network name (rule R96): `NN.RD` at an element that `NN.WR` wrote passes its checks and reads the
name back.
-/

namespace Sys2Proof.Machine

/-! ## The fields of the header octet -/

section
variable (alpha : BitVec 3) (ci : BitVec 1) {spare : Nat}

theorem nnHeader_ext (h : spare < 8) : (nnHeader alpha ci spare).extractLsb' 7 1 = 1#1 := by
  apply BitVec.eq_of_toNat_eq
  rw [BitVec.extractLsb'_toNat, nnHeader_toNat alpha ci h, Nat.shiftRight_eq_div_pow]
  have := alpha.isLt
  have := ci.isLt
  simp only [BitVec.toNat_ofNat]
  omega

theorem nnHeader_alpha (h : spare < 8) : (nnHeader alpha ci spare).extractLsb' 4 3 = alpha := by
  apply BitVec.eq_of_toNat_eq
  rw [BitVec.extractLsb'_toNat, nnHeader_toNat alpha ci h, Nat.shiftRight_eq_div_pow]
  have := alpha.isLt
  have := ci.isLt
  omega

theorem nnHeader_ci (h : spare < 8) : (nnHeader alpha ci spare).extractLsb' 3 1 = ci := by
  apply BitVec.eq_of_toNat_eq
  rw [BitVec.extractLsb'_toNat, nnHeader_toNat alpha ci h, Nat.shiftRight_eq_div_pow]
  have := ci.isLt
  omega

theorem nnHeader_spare (h : spare < 8) : ((nnHeader alpha ci spare).extractLsb' 0 3).toNat = spare := by
  rw [extractLsb'_low_toNat, nnHeader_toNat alpha ci h]
  omega

end

/-! ## What the header of a written name says of its text -/

section
variable {p : Params} {b : Block} {spare : Nat} {text : List Bool}

theorem headerSpare_of_nameText (h : NameText p b spare text) :
    headerSpare (nnHeader b.nnAlpha b.nnCi spare) = spare := by
  have hspare := h.spare_eq
  rw [headerSpare, nnHeader_alpha _ _ h.spare_lt, ← extractLsb'_low_toNat, nnHeader_spare _ _ h.spare_lt]
  split_ifs at hspare ⊢ <;> omega

theorem parsedLength_of_nameText (h : NameText p b spare text) :
    parsedLength (nnHeader b.nnAlpha b.nnCi spare) text.length = b.nnLen.toNat := by
  have hlength := h.length_eq
  rw [parsedLength, nnHeader_alpha _ _ h.spare_lt, headerSpare_of_nameText h]
  split_ifs at hlength ⊢ <;> omega

theorem not_raggedText_of_nameText (h : NameText p b spare text) :
    ¬ raggedText (nnHeader b.nnAlpha b.nnCi spare) text.length := by
  have hlength := h.length_eq
  rw [raggedText, nnHeader_alpha _ _ h.spare_lt, headerSpare_of_nameText h]
  split_ifs at hlength ⊢ <;> omega

/-- The length of an element in octets (rule R95). -/
theorem octets_of_nameText (h : NameText p b spare text) : (8 + text.length) / 8 =
    1 + if b.nnAlpha = 0#3 then (7 * b.nnLen.toNat + b.nnLen.toNat % 8) / 8 else 2 * b.nnLen.toNat := by
  have hspare := spareCount_eq b.nnLen.toNat ▸ h.spare_eq
  have hlength := h.length_eq
  split_ifs at hspare hlength ⊢ <;> omega

end

/-! ## Reading the element back -/

section
variable {p : Params} {b c c' : Block} {spare : Nat} {text : List Bool}

/-- The header of the element reads as the header that was written. -/
theorem header_of_nameWritten {len : Nat} (hspare : spare < 8) (h : NameWritten p b c spare len) :
    (nnHeader b.nnAlpha b.nnCi spare).toNat = fieldValue c b.cursor.toNat 8 := by
  have hlt := (nnHeader b.nnAlpha b.nnCi spare).isLt
  rw [nnHeader_toNat _ _ hspare] at hlt ⊢
  exact (fieldValue_of_holds h.header hlt).symm

/-- `NN.RD` at an element that `NN.WR` wrote meets none of its faults. -/
theorem operationOf_nnRd_of_written (htext : NameText p b spare text)
    (hwritten : NameWritten p b c spare (8 + text.length)) (hcursor : c.cursor = b.cursor)
    (hoctets : 8 * c.nnOctets.toNat = 8 + text.length)
    (hfits : b.cursor.toNat + (8 + text.length) ≤ c.frameLen.toNat)
    (hsel : ¬ (b.nnAlpha ≠ 0#3 ∧ b.nnAlpha ≠ p.alphaSelWide)) (hlen : b.nnLen.toNat ≤ p.nnMaxChars) :
    operationOf .nnRd p c = .ok (c.accepted (nnHeader b.nnAlpha b.nnCi spare) c.nnOctets.toNat
      (parsedChars p c (nnHeader b.nnAlpha b.nnCi spare) text.length)) := by
  have hheader : (nnHeader b.nnAlpha b.nnCi spare).toNat = fieldValue c c.cursor.toNat 8 := by
    rw [hcursor, header_of_nameWritten htext.spare_lt hwritten]
  have hne : c.nnOctets.toNat ≠ 0 := by omega
  have htextBits : 8 * (c.nnOctets.toNat - 1) = text.length := by omega
  rw [← nnHeader_alpha b.nnAlpha b.nnCi htext.spare_lt] at hsel
  rw [← hoctets, ← hcursor] at hfits
  rw [operationOf_nnRd hheader, htextBits, parsedLength_of_nameText htext, if_neg hne, if_neg (Nat.not_lt.2 hfits),
    if_neg hsel, if_neg (not_raggedText_of_nameText htext), if_neg (Nat.not_lt.2 hlen)]

/-- The characters parsed from an element are those that were written: a code has one character, and a field one
value. -/
theorem char_of_written {hdr : Octet} {len : Nat} (hwritten : NameWritten p b c spare len)
    (hparsed : NameParsed p c c' hdr b.nnLen.toNat) (hcursor : c.cursor = b.cursor)
    (halpha : hdr.extractLsb' 4 3 = b.nnAlpha) {k : Nat} (hk : k < b.nnLen.toNat) : c'.char k = b.char k := by
  by_cases hdefault : b.nnAlpha = 0#3
  · obtain ⟨code, hmaps, hbits⟩ := hwritten.codes hdefault k hk
    obtain ⟨code', hbits', hmaps'⟩ := hparsed.codes (halpha.trans hdefault) k hk
    have hcode : code' = code :=
      BitVec.eq_of_getLsbD_eq fun j hj => by rw [hbits' j hj, hcursor, hbits j hj]
    subst hcode
    exact Option.some.inj (hmaps'.symm.trans hmaps)
  · have hfield := hparsed.wide (halpha ▸ hdefault) k hk
    rw [hcursor, fieldValue_of_holds (hwritten.wide hdefault k hk) (b.char k).isLt] at hfield
    exact BitVec.eq_of_toNat_eq hfield

/-- `NN.RD` at an element that `NN.WR` wrote restores the name. -/
theorem nnRd_restores_written (hp : p.wf) (htext : NameText p b spare text)
    (hwritten : NameWritten p b c spare (8 + text.length)) (hcursor : c.cursor = b.cursor)
    (hoctets : 8 * c.nnOctets.toNat = 8 + text.length)
    (hfits : b.cursor.toNat + (8 + text.length) ≤ c.frameLen.toNat)
    (hsel : ¬ (b.nnAlpha ≠ 0#3 ∧ b.nnAlpha ≠ p.alphaSelWide)) (hlen : b.nnLen.toNat ≤ p.nnMaxChars) :
    ∃ c', operationOf .nnRd p c = .ok c' ∧ c'.nnAlpha = b.nnAlpha ∧ c'.nnCi = b.nnCi ∧ c'.nnLen = b.nnLen ∧
      (∀ k < b.nnLen.toNat, c'.char k = b.char k) ∧ c'.nnExt = 1#1 ∧ c'.nnSpare.toNat = spare ∧
      c'.cursor = BitVec.ofNat 16 (b.cursor.toNat + (8 + text.length)) := by
  have halpha := nnHeader_alpha b.nnAlpha b.nnCi htext.spare_lt
  have hparsed := nameParsed_accepted (b := c) hp ((parsedLength_of_nameText htext).trans_le hlen) c.nnOctets.toNat
  rw [parsedLength_of_nameText htext] at hparsed
  refine ⟨_, operationOf_nnRd_of_written htext hwritten hcursor hoctets hfits hsel hlen, halpha,
    nnHeader_ci _ _ htext.spare_lt, BitVec.eq_of_toNat_eq hparsed.length,
    fun _ hk => char_of_written hwritten hparsed hcursor halpha hk, nnHeader_ext _ _ htext.spare_lt,
    nnHeader_spare _ _ htext.spare_lt, ?_⟩
  rw [← hcursor, ← hoctets]
  rfl

end

/-- The block with the two registers set that the host sets before `NN.RD`. -/
def Block.pointedAt (b : Block) (cursor : BitVec 16) (octets : Nat) : Block :=
  { b with cursor := cursor, nnOctets := BitVec.ofNat 8 octets }

/-- The element stays where it is when the code and the two registers change. -/
theorem NameWritten.pointedAt {p : Params} {b c : Block} {spare len : Nat} (h : NameWritten p b c spare len)
    (cursor : BitVec 16) (octets : Nat) :
    NameWritten p b (Block.pointedAt { c with status := 0#8 } cursor octets) spare len := by
  obtain ⟨hheader, hcodes, hzeros, hwide, houtside⟩ := h
  exact ⟨hheader, hcodes, hzeros, hwide, houtside⟩

/-- Settles O52: the written element is one that `NN.RD` accepts, and its header and text hold the name. -/
theorem networkNameRoundTrip : Obligations.NetworkNameRoundTrip := by
  intro s t octets hp hexec hstatus hoctets
  obtain ⟨b', hop, rfl⟩ := ok_of_status hexec hstatus
  obtain ⟨hsel, hlen, spare, text, htext, hfits, rfl⟩ := operationOf_nnWr_ok hop
  have hcursor : (s.block.emitted spare text).cursor.toNat = s.block.cursor.toNat + (8 + text.length) :=
    cursor_sum_toNat hfits
  have hlength : octets = (8 + text.length) / 8 := by
    rw [hoctets, ← Nat.add_sub_cancel_left (n := s.block.cursor.toNat) (m := 8 + text.length), ← hcursor]
  have hcount := hlength.trans (octets_of_nameText htext)
  refine ⟨fun hdefault hsz => ?_, fun hwide hsz => ?_, fun hsmall => ?_⟩
  · rw [if_pos hdefault] at hcount; omega
  · rw [if_neg hwide] at hcount; omega
  · have hmod := htext.length_mod
    have hread : 8 * (BitVec.ofNat 8 octets).toNat = 8 + text.length := by
      rw [BitVec.toNat_ofNat, Nat.mod_eq_of_lt (by omega)]; omega
    have hwritten := (nameWritten_emitted htext).pointedAt s.block.cursor octets
    obtain ⟨c', hrd, halpha, hci, hsz, hchars, hext, hspare, hend⟩ :=
      nnRd_restores_written hp htext hwritten rfl hread hfits hsel hlen
    exact ⟨_, exec_of_ok hrd, rfl, halpha, hci, hsz, hchars, hext,
      hspare.trans (spareCount_eq s.block.nnLen.toNat ▸ htext.spare_eq), hend⟩

end Sys2Proof.Machine
end

section
/-!
The digit-swapped octet (rules R101, R102) and its two commands (rules R103, R104).
-/

namespace Sys2Proof.Machine

/-! ## The octet and its value -/

/-- A value within the contract gives two digits, each of which fits its nibble. -/
theorem bcdOctetOf_toNat {v : Nat} (h : v < 100) : (bcdOctetOf v).toNat = 16 * (v % 10) + v / 10 := by
  rw [bcdOctetOf, BitVec.toNat_ofNat]
  omega

/-- The value of an octet, its nibbles said by division. -/
theorem bcdValueOf_eq (o : Octet) : bcdValueOf o = o.toNat / 16 + 10 * (o.toNat % 16) := by
  have := o.isLt
  simp only [bcdValueOf, BitVec.extractLsb'_toNat, Nat.shiftRight_eq_div_pow]
  omega

theorem bcdValueOf_le (o : Octet) : bcdValueOf o ≤ 165 := by
  have := o.isLt
  rw [bcdValueOf_eq]
  omega

theorem bcdValueOf_bcdOctetOf {v : Nat} (h : v < 100) : bcdValueOf (bcdOctetOf v) = v := by
  rw [bcdValueOf_eq, bcdOctetOf_toNat h]
  omega

/-- The two digits stand in the two nibbles, the units digit in the high one. -/
theorem bcdOctetOf_eq_append {v : Nat} (h : v < 100) :
    bcdOctetOf v = BitVec.ofNat 4 (v % 10) ++ BitVec.ofNat 4 (v / 10) := by
  apply BitVec.eq_of_toNat_eq
  have htens : (BitVec.ofNat 4 (v / 10)).toNat < 2 ^ 4 := (BitVec.ofNat 4 (v / 10)).isLt
  rw [bcdOctetOf_toNat h, BitVec.toNat_append, ← Nat.shiftLeft_add_eq_or_of_lt htens, Nat.shiftLeft_eq]
  simp only [BitVec.toNat_ofNat]
  omega

/-! ## The Operations -/

section
variable (p : Params) (b : Block)

theorem operationOf_bcdEnc : operationOf .bcdEnc p b =
    if 100 ≤ b.bcdVal.toNat then .error .fieldOutOfContract
    else .ok { b with bcdOctet := bcdOctetOf b.bcdVal.toNat } := rfl

theorem operationOf_bcdDec :
    operationOf .bcdDec p b = .ok { b with bcdVal := BitVec.ofNat 8 (bcdValueOf b.bcdOctet) } := rfl

end

/-! ## The statements -/

/-- Settles O37, by the two answers of the Operation. -/
theorem bcdEncSwapsTheDigits : Obligations.BcdEncSwapsTheDigits := by
  refine ⟨rfl, fun s => ?_⟩
  have hop := operationOf_bcdEnc s.params s.block
  split_ifs at hop ⊢ with hcontract
  · exact exec_of_error hop
  · exact ⟨_, bcdOctetOf_toNat (by omega), exec_of_ok hop⟩

/-- Settles O38: no octet's value exceeds 165, so it fits `BCD_VAL`. -/
theorem bcdDecAddsTheDigits : Obligations.BcdDecAddsTheDigits := by
  refine ⟨rfl, fun s => ⟨BitVec.ofNat 8 (bcdValueOf s.block.bcdOctet), ?_, exec_of_ok (operationOf_bcdDec _ _)⟩⟩
  have hle := bcdValueOf_le s.block.bcdOctet
  rw [BitVec.toNat_ofNat, Nat.mod_eq_of_lt (by omega), bcdValueOf_eq]

/-- Settles O49: a successful `BCD.ENC` has met the contract, within which the octet gives back the value encoded. -/
theorem bcdRoundTrip : Obligations.BcdRoundTrip := by
  refine ⟨fun v hv => ?_, fun o => ⟨rfl, bcdValueOf_le o⟩, bcdValueOf_eq _, fun s t hexec hstatus => ?_⟩
  · have hlt : v < 100 := by omega
    exact ⟨bcdOctetOf_eq_append hlt, bcdValueOf_bcdOctetOf hlt⟩
  · obtain ⟨b, hop, rfl⟩ := ok_of_status hexec hstatus
    obtain ⟨hcontract, hop⟩ := passed_of_ok hop
    cases hop
    rw [exec_of_ok (operationOf_bcdDec _ _)]
    simp only [bcdValueOf_bcdOctetOf (Nat.lt_of_not_le hcontract), BitVec.ofNat_toNat, BitVec.setWidth_eq]

end Sys2Proof.Machine
end

section
/-!
The zone octet (rules R105 to R107), the zone registers (rule R32), and `SM.ENC` and `SM.DEC` (rules R108, R109).
-/

namespace Sys2Proof.Machine

/-! ## The subfields of a zone octet -/

/-- The widths of the three subfields: units digit, sign and tens digit (rule R106). -/
structure ZoneWidths (u sg t : Nat) : Prop where
  units : u < 16
  sign : sg < 2
  tens : t < 8

section
variable {layout : TzLayout} {u sg t u' sg' t' : Nat}

theorem zoneNumber_lt (h : ZoneWidths u sg t) : zoneNumber layout u sg t < 256 := by
  obtain ⟨hu, hs, ht⟩ := h
  cases layout <;> simp only [zoneNumber] <;> omega

/-- The subfields of an octet are the one triple within its widths that gives it. -/
theorem zoneNumber_inj (h : ZoneWidths u sg t) (h' : ZoneWidths u' sg' t')
    (heq : zoneNumber layout u sg t = zoneNumber layout u' sg' t') : u = u' ∧ sg = sg' ∧ t = t' := by
  obtain ⟨hu, hs, ht⟩ := h
  obtain ⟨hu', hs', ht'⟩ := h'
  cases layout <;> simp only [zoneNumber] at heq <;> omega

theorem zoneOctetOf_toNat (h : ZoneWidths u sg t) : (zoneOctetOf layout u sg t).toNat = zoneNumber layout u sg t := by
  have hlt := zoneNumber_lt (layout := layout) h
  cases layout <;> exact Nat.mod_eq_of_lt hlt

/-- `SM.DEC` takes an octet's value from its subfields. -/
theorem exists_zoneSubfields (layout : TzLayout) (o : Octet) : ∃ u sg t, ZoneWidths u sg t ∧
    o.toNat = zoneNumber layout u sg t ∧ zoneOfOctet layout o = zoneValue u sg t := by
  have ho := o.isLt
  cases layout
  all_goals
    refine ⟨_, _, _, ⟨BitVec.isLt _, BitVec.isLt _, BitVec.isLt _⟩, ?_, rfl⟩
    simp only [zoneNumber, BitVec.extractLsb'_toNat, Nat.shiftRight_eq_div_pow]
    omega

theorem zoneOfOctet_zoneOctetOf (h : ZoneWidths u sg t) :
    zoneOfOctet layout (zoneOctetOf layout u sg t) = zoneValue u sg t := by
  obtain ⟨u', sg', t', h', hnumber, hvalue⟩ := exists_zoneSubfields layout (zoneOctetOf layout u sg t)
  rw [zoneOctetOf_toNat h] at hnumber
  obtain ⟨rfl, rfl, rfl⟩ := zoneNumber_inj h h' hnumber
  exact hvalue

/-! ## The value of the subfields -/

theorem zoneValue_eq (u sg t : Nat) :
    zoneValue u sg t = if sg = 1 then -((u : Int) + 10 * t) else (u : Int) + 10 * t := by
  simp only [zoneValue]
  push_cast
  rfl

theorem zoneValue_natAbs_le (h : ZoneWidths u sg t) : (zoneValue u sg t).natAbs ≤ 85 := by
  obtain ⟨hu, -, ht⟩ := h
  rw [zoneValue_eq]
  split_ifs <;> omega

/-- There is one zero: its sign is not kept (rule R109). -/
theorem zoneValue_zero (sg : Nat) : zoneValue 0 sg 0 = 0 := by simp [zoneValue]

/-- The digits and the sign of a number have it as their value. -/
theorem zoneValue_digits (q : Int) : zoneValue (q.natAbs % 10) (zoneSign q) (q.natAbs / 10) = q := by
  by_cases hneg : q < 0
  · rw [zoneSign, if_pos hneg, zoneValue_eq, if_pos rfl]; omega
  · rw [zoneSign, if_neg hneg, zoneValue_eq, if_neg (by decide)]; omega

theorem zoneWidths_digits {q : Int} (h : ¬ 79 < q.natAbs) :
    ZoneWidths (q.natAbs % 10) (zoneSign q) (q.natAbs / 10) := by
  have hsign : zoneSign q < 2 := by unfold zoneSign; split_ifs <;> omega
  exact ⟨by omega, hsign, by omega⟩

end

/-! ## The zone registers -/

/-- `TZ_Q` takes a signed number of quarter-hours, and `TZ_OFF_SEC` as many times 900 seconds. -/
def Block.withZone (b : Block) (q : Int) : Block :=
  { b with tzQ := BitVec.ofInt 8 q, tzOffSec := BitVec.ofInt 32 (900 * q) }

section
variable {q : Int}

/-- The value of every zone octet fits `TZ_Q`. -/
theorem toInt_ofInt_tzQ (h : q.natAbs ≤ 85) : (BitVec.ofInt 8 q).toInt = q :=
  BitVec.toInt_ofInt_eq_self (by decide) (by omega) (by omega)

/-- In seconds it fits `TZ_OFF_SEC`. -/
theorem toInt_ofInt_tzOffSec (h : q.natAbs ≤ 85) :
    (BitVec.ofInt 32 (900 * q)).toInt = 900 * (BitVec.ofInt 8 q).toInt := by
  rw [toInt_ofInt_tzQ h]
  exact BitVec.toInt_ofInt_eq_self (by decide) (by omega) (by omega)

end

/-- The quotient that truncates toward zero loses nothing exactly on the multiples. -/
theorem mul_tdiv_eq_self_iff (off : Int) : 900 * off.tdiv 900 = off ↔ off % 900 = 0 :=
  ⟨fun h => Int.emod_eq_zero_of_dvd ⟨_, h.symm⟩, fun h => Int.mul_tdiv_cancel' (Int.dvd_of_emod_eq_zero h)⟩

/-! ## The Operations -/

/-- The block after `SM.ENC` of `q` quarter-hours. -/
def Block.zoneEncoded (b : Block) (layout : TzLayout) (q : Int) : Block :=
  { b with
    tzQ := BitVec.ofInt 8 q
    smOctet := zoneOctetOf layout (q.natAbs % 10) (zoneSign q) (q.natAbs / 10) }

section
variable {p : Params} {b b' : Block}

theorem operationOf_smEnc : operationOf .smEnc p b =
    if 79 < (quarterHours b.tzOffSec).natAbs then .error .valueTooWide
    else .ok (b.zoneEncoded p.tzLayout (quarterHours b.tzOffSec)) := rfl

theorem operationOf_smDec {q : Int} (h : zoneOfOctet p.tzLayout b.smOctet = q) :
    operationOf .smDec p b = .ok (b.withZone q) := h ▸ rfl

/-- A successful `SM.ENC` has met the bound of the tens digit. -/
theorem operationOf_smEnc_ok (h : operationOf .smEnc p b = .ok b') :
    ¬ 79 < (quarterHours b.tzOffSec).natAbs ∧ b' = b.zoneEncoded p.tzLayout (quarterHours b.tzOffSec) := by
  obtain ⟨hwide, h⟩ := passed_of_ok h
  cases h
  exact ⟨hwide, rfl⟩

/-- No offset is zero quarter-hours, whose octet is `0x00` in either layout. -/
theorem operationOf_smEnc_of_zero (h : b.tzOffSec = 0#32) :
    operationOf .smEnc p b = .ok { b with tzQ := 0#8, smOctet := 0#8 } := by
  have hq : quarterHours b.tzOffSec = 0 := by rw [h]; rfl
  rw [operationOf_smEnc, hq, if_neg (by decide)]
  cases hlayout : p.tzLayout <;> rfl

/-- `SM.DEC` reads back the quotient that `SM.ENC` encoded. -/
theorem zoneOfOctet_zoneEncoded {layout : TzLayout} {q : Int} (h : ¬ 79 < q.natAbs) :
    zoneOfOctet layout (b.zoneEncoded layout q).smOctet = q :=
  (zoneOfOctet_zoneOctetOf (zoneWidths_digits h)).trans (zoneValue_digits q)

end

/-! ## The statements -/

/-- Settles O39: below the bound the digits are within the subfields' widths and the quotient fits `TZ_Q`. -/
theorem smEncEncodesTheOffset : Obligations.SmEncEncodesTheOffset := by
  refine ⟨rfl, ?_⟩
  rintro s q rfl
  split
  · next hwide => exact exec_of_error (operationOf_smEnc.trans (if_pos hwide))
  · next hwide =>
    exact ⟨_, exec_of_ok (operationOf_smEnc.trans (if_neg hwide)), rfl,
      toInt_ofInt_tzQ (q := quarterHours _) ((Nat.le_of_not_lt hwide).trans (by decide)),
      zoneOctetOf_toNat (zoneWidths_digits hwide)⟩

/-- Settles O40: by the subfields of the octet, whose value the registers hold, and since the octet that `SM.ENC` gives
has its quotient as its value. -/
theorem smDecDecodesTheOctet : Obligations.SmDecDecodesTheOctet := by
  refine ⟨rfl, fun s => ?_⟩
  obtain ⟨u, sg, t, hwidths, hnumber, hvalue⟩ := exists_zoneSubfields s.params.tzLayout s.block.smOctet
  have hle := zoneValue_natAbs_le hwidths
  refine ⟨u, sg, t, _, hwidths.units, hwidths.sign, hwidths.tens, hnumber, exec_of_ok (operationOf_smDec hvalue), rfl,
    (toInt_ofInt_tzQ hle).trans (zoneValue_eq u sg t), toInt_ofInt_tzOffSec hle, ?_, ?_⟩
  · rintro rfl rfl
    rw [zoneValue_zero]
    exact exec_of_ok (operationOf_smEnc_of_zero rfl)
  · intro t hexec hstatus
    obtain ⟨b, henc, rfl⟩ := ok_of_status hexec hstatus
    obtain ⟨hwide, rfl⟩ := operationOf_smEnc_ok henc
    set q := quarterHours s.block.tzOffSec with hq
    have hle : q.natAbs ≤ 85 := by omega
    have hread : zoneOfOctet s.params.tzLayout (s.block.zoneEncoded s.params.tzLayout q).smOctet = q :=
      zoneOfOctet_zoneEncoded hwide
    have hoff := toInt_ofInt_tzOffSec hle
    refine ⟨BitVec.ofInt 32 (900 * q), exec_of_ok (operationOf_smDec hread), hoff, ?_⟩
    rw [← BitVec.toInt_inj, hoff, toInt_ofInt_tzQ hle, hq]
    exact mul_tdiv_eq_self_iff _

end Sys2Proof.Machine
end

section
/-!
The time element in the frame (rules R110, R111) and `TZT.WR` (rule R113).
-/

namespace Sys2Proof.Machine

/-! ## The element in the frame -/

/-- The six values that the element carries in two digits each: the year in its century, then the others (rule R113). -/
def elementValues (c : CalBank) : Fin 6 → Nat :=
  ![c.year.toNat % 100, c.mon.toNat, c.day.toNat, c.hour.toNat, c.min.toNat, c.sec.toNat]

/-- The frame holds a time element at `pos`: six values, each its units digit before its tens digit, and a zone octet
(rules R101, R111). -/
structure HoldsElement (b : Block) (pos : Nat) (layout : TzLayout) (v : Fin 6 → Nat) (u sg t : Nat) : Prop where
  digits : ∀ i : Fin 6,
    holdsField b (pos + 8 * i.val) 4 (v i % 10) ∧ holdsField b (pos + 8 * i.val + 4) 4 (v i / 10)
  zone : holdsField b (pos + 48) 8 (zoneNumber layout u sg t)

/-! ## The fields of the element -/

/-- Two fields of which the second fits its width are one wider field. -/
theorem fieldBits_add {m n x y : Nat} (h : y < 2 ^ n) :
    fieldBits (m + n) (2 ^ n * x + y) = fieldBits m x ++ fieldBits n y := by
  unfold fieldBits
  rw [List.range_add, List.map_append, List.map_map]
  congr 1
  · refine List.map_congr_left fun j hj => ?_
    have hj := List.mem_range.1 hj
    rw [Nat.testBit_two_pow_mul_add _ h, if_neg (by omega), show m + n - 1 - j - n = m - 1 - j by omega]
  · refine List.map_congr_left fun j hj => ?_
    have hj := List.mem_range.1 hj
    rw [Function.comp_apply, Nat.testBit_two_pow_mul_add _ h, if_pos (by omega),
      show m + n - 1 - (m + j) = n - 1 - j by omega]

/-- The three subfields of the zone, in either layout, are the octet of rule R107. -/
theorem zoneFields_bits {u sg t : Nat} (h : ZoneWidths u sg t) (layout : TzLayout) :
    (zoneFields layout u sg t).flatMap (fun x => fieldBits x.1 x.2) = fieldBits 8 (zoneNumber layout u sg t) := by
  obtain ⟨hu, hs, ht⟩ := h
  cases layout with
  | u4s1t3 =>
    have hnumber : zoneNumber .u4s1t3 u sg t = 2 ^ 3 * (2 ^ 1 * u + sg) + t := by simp only [zoneNumber]; omega
    rw [hnumber, fieldBits_add (m := 4 + 1) (n := 3) ht, fieldBits_add (m := 4) (n := 1) hs, List.append_assoc]
    rfl
  | s1t3u4 =>
    have hnumber : zoneNumber .s1t3u4 u sg t = 2 ^ 4 * (2 ^ 3 * sg + t) + u := by simp only [zoneNumber]; omega
    rw [hnumber, fieldBits_add (m := 1 + 3) (n := 4) hu, fieldBits_add (m := 1) (n := 3) ht, List.append_assoc]
    rfl

theorem digitFields_sum (vs : List Nat) : ((vs.flatMap digitFields).map Prod.fst).sum = 8 * vs.length := by
  induction vs with
  | nil => rfl
  | cons v rest ih => simp [digitFields] at ih ⊢; omega

/-- The two digits of value `i` of a list come after those of the values before it. -/
theorem digitFields_split (vs : List Nat) {i : Nat} (hi : i < vs.length) : vs.flatMap digitFields =
    (vs.take i).flatMap digitFields ++ (4, vs[i] % 10) :: (4, vs[i] / 10) :: (vs.drop (i + 1)).flatMap digitFields := by
  conv_lhs => rw [← List.take_append_drop i vs, List.drop_eq_getElem_cons hi, List.flatMap_append, List.flatMap_cons]
  rfl

/-- The six values of a bank, in a list. -/
def elementList (c : CalBank) : List Nat := List.ofFn (elementValues c)

@[simp] theorem elementList_length (c : CalBank) : (elementList c).length = 6 := List.length_ofFn

theorem tztFields_eq (layout : TzLayout) (c : CalBank) (q : Int) : tztFields layout c q =
    (elementList c).flatMap digitFields ++ zoneFields layout (q.natAbs % 10) (zoneSign q) (q.natAbs / 10) := by
  simp [tztFields, elementList, elementValues, List.ofFn_succ]

/-! ## Writing -/

/-- A field in the middle of the fields that the frame was written with stands after the widths before it. -/
theorem holdsField_of_frame {b : Block} {f : Memory 8} {pos k n v : Nat} {xs ys : List (Nat × Nat)}
    (h : b.frame = memWriteFields b.epoch f pos (xs ++ (n, v) :: ys)) (hk : (xs.map Prod.fst).sum = k) :
    holdsField b (pos + k) n v := by
  subst hk
  intro j hj
  rw [Block.bit, h]
  exact frameBit_memWriteFields_at xs ys n v hj

section
variable {b : Block} {f : Memory 8} {pos : Nat} {layout : TzLayout} {c : CalBank} {q : Int}

theorem holdsField_digits_of_frame (h : b.frame = memWriteFields b.epoch f pos (tztFields layout c q)) (i : Fin 6) :
    holdsField b (pos + 8 * i.val) 4 (elementValues c i % 10) ∧
      holdsField b (pos + 8 * i.val + 4) 4 (elementValues c i / 10) := by
  have hi : i.val < (elementList c).length := by simp
  have hvalue : (elementList c)[i.val] = elementValues c i := List.getElem_ofFn _
  have hsum : (((elementList c).take i.val).flatMap digitFields |>.map Prod.fst).sum = 8 * i.val := by
    rw [digitFields_sum, List.length_take_of_le hi.le]
  rw [tztFields_eq, digitFields_split _ hi, hvalue, List.append_assoc] at h
  refine ⟨holdsField_of_frame h hsum, ?_⟩
  rw [List.cons_append, List.append_cons, List.cons_append] at h
  rw [Nat.add_assoc]
  exact holdsField_of_frame h (by simp [hsum])

theorem holdsField_zone_of_frame (h : b.frame = memWriteFields b.epoch f pos (tztFields layout c q))
    (hq : ¬ 79 < q.natAbs) : holdsField b (pos + 48) 8
      (zoneNumber layout (q.natAbs % 10) (zoneSign q) (q.natAbs / 10)) := by
  have hsum : (((elementList c).flatMap digitFields).map Prod.fst).sum = 48 := by
    rw [digitFields_sum, elementList_length]
  refine holdsField_of_frame (f := f) (xs := (elementList c).flatMap digitFields) (ys := []) ?_ hsum
  rw [h, tztFields_eq, memWriteFields_eq, memWriteFields_eq, List.flatMap_append, List.flatMap_append,
    zoneFields_bits (zoneWidths_digits hq)]
  simp

/-- The element stands in the frame after the write. -/
theorem holdsElement_of_frame (h : b.frame = memWriteFields b.epoch f pos (tztFields layout c q))
    (hq : ¬ 79 < q.natAbs) :
    HoldsElement b pos layout (elementValues c) (q.natAbs % 10) (zoneSign q) (q.natAbs / 10) :=
  ⟨holdsField_digits_of_frame h, holdsField_zone_of_frame h hq⟩

end

/-- The frame after `TZT.WR` of a bank and `q` quarter-hours. Irreducible, since to compare two blocks field by field
is otherwise to run the write. -/
@[irreducible] def Block.elementFrame (b : Block) (layout : TzLayout) (c : CalBank) (q : Int) : Memory 8 :=
  memWriteFields b.epoch b.frame b.cursor.toNat (tztFields layout c q)

/-- The block after `TZT.WR` of a bank and `q` quarter-hours. -/
def Block.timeWritten (b : Block) (layout : TzLayout) (c : CalBank) (q : Int) : Block :=
  { b.advance 56 with frame := b.elementFrame layout c q }

section
variable (b : Block) (layout : TzLayout) (c : CalBank) (q : Int)

theorem elementFrame_eq :
    b.elementFrame layout c q = memWriteFields b.epoch b.frame b.cursor.toNat (tztFields layout c q) := by
  unfold Block.elementFrame
  rfl

theorem writeFields_tztFields : b.writeFields (tztFields layout c q) = b.timeWritten layout c q := by
  simp only [Block.writeFields, tztFields_sum, ← elementFrame_eq]
  rfl

theorem holdsElement_timeWritten (hq : ¬ 79 < q.natAbs) : HoldsElement (b.timeWritten layout c q) b.cursor.toNat layout
    (elementValues c) (q.natAbs % 10) (zoneSign q) (q.natAbs / 10) :=
  holdsElement_of_frame (elementFrame_eq b layout c q) hq

theorem frameKept_timeWritten : frameKeptOutside b (b.timeWritten layout c q) b.cursor.toNat 56 := by
  intro a ha
  have hframe : (b.timeWritten layout c q).frame = _ := elementFrame_eq b layout c q
  rw [Block.bit, hframe]
  exact frameBit_memWriteFields_out (by rwa [tztFields_sum])

end

/-- The five fields that are checked are the values of the element but its first, which is within the contract. -/
theorem boundedFields_any_iff (c : CalBank) :
    (boundedFields c).any (fun v => decide (100 ≤ v)) = true ↔ ∃ i, 100 ≤ elementValues c i := by
  have hyear : ¬ 100 ≤ c.year.toNat % 100 := by omega
  simp [boundedFields, elementValues, Fin.exists_fin_succ, hyear]

section
variable {p : Params} {b b' : Block}

theorem operationOf_tztWr : operationOf .tztWr p b =
    if ∃ i, 100 ≤ elementValues (selectedBank b) i then .error .fieldOutOfContract
    else if 79 < (quarterHours b.tzOffSec).natAbs then .error .valueTooWide
    else if b.frameLen.toNat < b.cursor.toNat + 56 then .error .frameOverflow
    else .ok (b.timeWritten p.tzLayout (selectedBank b) (quarterHours b.tzOffSec)) := by
  simp only [operationOf, opTztWr, boundedFields_any_iff, zoneMax, overrun_eq_true, writeFields_tztFields]

/-- A successful `TZT.WR` has met its three bounds. -/
theorem operationOf_tztWr_ok (h : operationOf .tztWr p b = .ok b') :
    (∀ i, elementValues (selectedBank b) i < 100) ∧ ¬ 79 < (quarterHours b.tzOffSec).natAbs ∧ b.fits 56 ∧
      b' = b.timeWritten p.tzLayout (selectedBank b) (quarterHours b.tzOffSec) := by
  rw [operationOf_tztWr] at h
  obtain ⟨hcontract, h⟩ := passed_of_ok h
  obtain ⟨hwide, h⟩ := passed_of_ok h
  obtain ⟨hover, h⟩ := passed_of_ok h
  injection h with h
  exact ⟨fun i => Nat.lt_of_not_le fun hi => hcontract ⟨i, hi⟩, hwide, Nat.le_of_not_lt hover, h.symm⟩

end

/-! ## The statement -/

/-- Settles O41: by the answers of the Operation, after whose last the frame holds the element. -/
theorem tztWrEncodesTheTime : Obligations.TztWrEncodesTheTime := by
  refine ⟨rfl, fun s bank v q u sg t hbank hv hq hu hsg ht => ?_⟩
  obtain rfl : bank = selectedBank s.block := hbank
  obtain rfl : v = elementValues (selectedBank s.block) := hv
  obtain rfl : q = quarterHours s.block.tzOffSec := hq
  obtain rfl : sg = zoneSign (quarterHours s.block.tzOffSec) := hsg
  subst hu ht
  have hop := operationOf_tztWr (p := s.params) (b := s.block)
  split_ifs at hop ⊢ with hcontract hwide hover
  · exact exec_of_error hop
  · exact exec_of_error hop
  · exact exec_of_error hop
  · have hheld := holdsElement_timeWritten s.block s.params.tzLayout (selectedBank s.block) _ hwide
    exact ⟨_, exec_of_ok hop, rfl, hheld.digits, hheld.zone, frameKept_timeWritten _ _ _ _,
      cursor_sum_toNat (by omega)⟩

end Sys2Proof.Machine
end

section
/-!
`TZT.RD` (rule R114), and its round trip with `TZT.WR` (rules R115, R116).
-/

namespace Sys2Proof.Machine

/-! ## Reading -/

/-- Six two-digit values in the registers of a bank, `base` added to the year alone (rule R114). -/
def elementBank (base : Nat) (d : Nat → Nat) : CalBank where
  year := BitVec.ofNat 16 (base + d 0)
  mon := BitVec.ofNat 8 (d 1)
  day := BitVec.ofNat 8 (d 2)
  hour := BitVec.ofNat 8 (d 3)
  min := BitVec.ofNat 8 (d 4)
  sec := BitVec.ofNat 8 (d 5)

/-- The block after `TZT.RD`. -/
def Block.timeRead (b : Block) (p : Params) : Block :=
  { (b.advance 56).withZone (tztZone p.tzLayout b) with calu := elementBank p.centuryBase (tztDigits b) }

theorem operationOf_tztRd (p : Params) (b : Block) : operationOf .tztRd p b =
    if b.frameLen.toNat < b.cursor.toNat + 56 then .error .truncated else .ok (b.timeRead p) := by
  simp only [operationOf, opTztRd, overrun_eq_true]
  rfl

theorem tztDigits_eq (b : Block) (i : Nat) : tztDigits b i =
    fieldValue b (b.cursor.toNat + 8 * i) 4 + 10 * fieldValue b (b.cursor.toNat + 8 * i + 4) 4 := by
  rw [tztDigits, readAt_eq, readAt_eq, Nat.add_assoc]

theorem tztDigits_le (b : Block) (i : Nat) : tztDigits b i ≤ 165 := by
  have hunits := fieldValue_lt b (b.cursor.toNat + 8 * i) 4
  have htens := fieldValue_lt b (b.cursor.toNat + 8 * i + 4) 4
  rw [tztDigits_eq]
  omega

theorem readAt_lt (b : Block) (off n : Nat) : b.readAt off n < 2 ^ n := readAt_eq b off n ▸ fieldValue_lt ..

/-- `TZT.RD` takes the zone from the subfields of the octet at 48 bits from `CURSOR`. -/
theorem exists_tztZone (layout : TzLayout) (b : Block) : ∃ u sg t, ZoneWidths u sg t ∧
    fieldValue b (b.cursor.toNat + 48) 8 = zoneNumber layout u sg t ∧ tztZone layout b = zoneValue u sg t := by
  have hoctet := fieldValue_add b (b.cursor.toNat + 48)
  cases layout with
  | u4s1t3 =>
    refine ⟨_, _, _, ⟨readAt_lt b 48 4, readAt_lt b 52 1, readAt_lt b 53 3⟩, ?_, rfl⟩
    have hsign := hoctet 4 1
    have htens := hoctet 5 3
    simp only [readAt_eq, zoneNumber, Nat.add_assoc, Nat.reduceAdd] at hsign htens ⊢
    omega
  | s1t3u4 =>
    refine ⟨_, _, _, ⟨readAt_lt b 52 4, readAt_lt b 48 1, readAt_lt b 49 3⟩, ?_, rfl⟩
    have htens := hoctet 1 3
    have hunits := hoctet 4 4
    simp only [readAt_eq, zoneNumber, Nat.add_assoc, Nat.reduceAdd] at htens hunits ⊢
    omega

/-- Six values of two nibbles each fit the registers of the bank. -/
theorem elementBank_toNat {base : Nat} {d : Nat → Nat} (hbase : base ≤ 65370) (hd : ∀ i, d i ≤ 165) :
    (elementBank base d).year.toNat = base + d 0 ∧ (elementBank base d).mon.toNat = d 1 ∧
      (elementBank base d).day.toNat = d 2 ∧ (elementBank base d).hour.toNat = d 3 ∧
      (elementBank base d).min.toNat = d 4 ∧ (elementBank base d).sec.toNat = d 5 := by
  have hfits (i : Nat) : (BitVec.ofNat 8 (d i)).toNat = d i :=
    Nat.mod_eq_of_lt ((hd i).trans_lt (by decide))
  have hyear : (BitVec.ofNat 16 (base + d 0)).toNat = base + d 0 :=
    Nat.mod_eq_of_lt ((Nat.add_le_add hbase (hd 0)).trans_lt (by decide))
  exact ⟨hyear, hfits 1, hfits 2, hfits 3, hfits 4, hfits 5⟩

/-! ## Reading what was written -/

section
variable {b : Block} {layout : TzLayout} {v : Fin 6 → Nat} {u sg t : Nat}

/-- Two digits within the contract read as their value. -/
theorem HoldsElement.tztDigits_eq (h : HoldsElement b b.cursor.toNat layout v u sg t) {i : Fin 6} (hi : v i < 100) :
    tztDigits b i = v i := by
  obtain ⟨hunits, htens⟩ := h.digits i
  rw [Machine.tztDigits_eq, fieldValue_of_holds hunits (by omega), fieldValue_of_holds htens (by omega)]
  omega

theorem HoldsElement.tztZone_eq (h : HoldsElement b b.cursor.toNat layout v u sg t) (hwidths : ZoneWidths u sg t) :
    tztZone layout b = zoneValue u sg t := by
  obtain ⟨u', sg', t', hwidths', hnumber, hvalue⟩ := exists_tztZone layout b
  rw [fieldValue_of_holds h.zone (zoneNumber_lt hwidths)] at hnumber
  obtain ⟨rfl, rfl, rfl⟩ := zoneNumber_inj hwidths hwidths' hnumber
  exact hvalue

end

/-- A bank with the values of another is that bank but for the century of its year. -/
theorem elementBank_of_values {base : Nat} {d : Nat → Nat} {c : CalBank}
    (h : ∀ i : Fin 6, d i = elementValues c i) :
    elementBank base d = { c with year := BitVec.ofNat 16 (base + c.year.toNat % 100) } := by
  have hyear : d 0 = c.year.toNat % 100 := h 0
  have hmon : d 1 = c.mon.toNat := h 1
  have hday : d 2 = c.day.toNat := h 2
  have hhour : d 3 = c.hour.toNat := h 3
  have hmin : d 4 = c.min.toNat := h 4
  have hsec : d 5 = c.sec.toNat := h 5
  simp only [elementBank, hyear, hmon, hday, hhour, hmin, hsec, BitVec.ofNat_toNat, BitVec.setWidth_eq]

/-! ## The statements -/

/-- Settles O42: the subfields of the octet at 48 bits, and six values that fit their registers. -/
theorem tztRdDecodesTheTime : Obligations.TztRdDecodesTheTime := by
  refine ⟨rfl, fun s d ⟨_, _, _, _, _, hbase⟩ hd => ?_⟩
  obtain rfl : d = tztDigits s.block := funext fun i => (hd i).trans (tztDigits_eq s.block i).symm
  split
  · next hover => exact exec_of_error ((operationOf_tztRd ..).trans (if_pos hover))
  · next hover =>
    obtain ⟨u, sg, t, hwidths, hnumber, hvalue⟩ := exists_tztZone s.params.tzLayout s.block
    have hle := zoneValue_natAbs_le hwidths
    rw [← hvalue] at hle
    obtain ⟨hyear, hmon, hday, hhour, hmin, hsec⟩ := elementBank_toNat hbase (tztDigits_le s.block)
    exact ⟨u, sg, t, _, hwidths.units, hwidths.sign, hwidths.tens, hnumber,
      exec_of_ok ((operationOf_tztRd ..).trans (if_neg hover)), rfl, hyear, hmon, hday, hhour, hmin, hsec,
      (toInt_ofInt_tzQ hle).trans (hvalue.trans (zoneValue_eq u sg t)), toInt_ofInt_tzOffSec hle,
      cursor_sum_toNat (by omega)⟩

/-- The block as it is before the second command: code 0, and `CURSOR` set by the host. -/
def Block.rewound (b : Block) (cursor : BitVec 16) : Block := { b with status := 0#8, cursor := cursor }

theorem HoldsElement.rewound {b : Block} {pos u sg t : Nat} {layout : TzLayout} {v : Fin 6 → Nat}
    (h : HoldsElement b pos layout v u sg t) (cursor : BitVec 16) :
    HoldsElement (b.rewound cursor) pos layout v u sg t :=
  ⟨h.digits, h.zone⟩

/-- `TZT.RD` at the element that `TZT.WR` wrote reads back its values and its quarter-hours. -/
theorem timeRead_timeWritten {p : Params} {b : Block} {c : CalBank} {q : Int}
    (hcontract : ∀ i, elementValues c i < 100) (hwide : ¬ 79 < q.natAbs) :
    ((b.timeWritten p.tzLayout c q).rewound b.cursor).timeRead p =
      { b.timeWritten p.tzLayout c q with
        calu := { c with year := BitVec.ofNat 16 (p.centuryBase + c.year.toNat % 100) }
        tzQ := BitVec.ofInt 8 q
        tzOffSec := BitVec.ofInt 32 (900 * q)
        status := 0#8 } := by
  have hheld := (holdsElement_timeWritten b p.tzLayout c q hwide).rewound b.cursor
  have hzone := (hheld.tztZone_eq (zoneWidths_digits hwide)).trans (zoneValue_digits q)
  have hbank := elementBank_of_values (base := p.centuryBase) fun i => hheld.tztDigits_eq (hcontract i)
  rw [Block.timeRead, hzone, hbank]
  simp only [Block.timeWritten, Block.rewound, Block.advance, Block.withZone]

/-- Settles O50: a successful `TZT.WR` has met the bounds within which the element reads back. -/
theorem timeElementRoundTrip : Obligations.TimeElementRoundTrip := by
  intro s t bank ⟨_, _, _, _, _, hbase⟩ hbank hexec hstatus
  obtain rfl : bank = selectedBank s.block := hbank
  obtain ⟨b, hop, rfl⟩ := ok_of_status hexec hstatus
  obtain ⟨hcontract, hwide, hfits, rfl⟩ := operationOf_tztWr_ok hop
  have hread := (operationOf_tztRd s.params ((s.block.timeWritten s.params.tzLayout (selectedBank s.block)
    (quarterHours s.block.tzOffSec)).rewound s.block.cursor)).trans (if_neg (Nat.not_lt.2 hfits))
  rw [timeRead_timeWritten hcontract hwide] at hread
  have hle : (quarterHours s.block.tzOffSec).natAbs ≤ 85 := by omega
  exact ⟨_, exec_of_ok hread, rfl, rfl, Nat.mod_eq_of_lt (by omega), toInt_ofInt_tzQ hle, toInt_ofInt_tzOffSec hle⟩

end Sys2Proof.Machine
end

section
/-!
The fixed fields of 43_fixed_fields.md: the answers of `SVC.RD`, `REJ.WR` and `SRES.RD`, and their round trips with the
frame primitives (rule R124).
-/

namespace Sys2Proof.Machine

/-! ## The Operations -/

section
variable (p : Params) (b : Block)

theorem operationOf_svcRd : operationOf .svcRd p b =
    if b.frameLen.toNat < b.cursor.toNat + 4 then .error .truncated
    else .ok { b.advance 4 with
      svcCode := BitVec.ofNat 4 (b.readAt 0 4)
      svcKnown := if BitVec.ofNat 4 (b.readAt 0 4) ∈ p.svcKnownSet then 1#1 else 0#1 } := by
  simp only [operationOf, opSvcRd, overrun_eq_true]

theorem operationOf_rejWr : operationOf .rejWr p b =
    if 256 ≤ b.rejCause.toNat then .error .valueTooWide
    else if b.frameLen.toNat < b.cursor.toNat + 8 then .error .frameOverflow
    else .ok (b.writeFields [(8, b.rejCause.toNat)]) := by
  simp only [operationOf, opRejWr, overrun_eq_true]

theorem operationOf_sresRd : operationOf .sresRd p b =
    if b.frameLen.toNat < b.cursor.toNat + 32 then .error .truncated
    else .ok { b.advance 32 with sres := BitVec.ofNat 32 (b.readAt 0 32) } := by
  simp only [operationOf, opSresRd, overrun_eq_true]

end

theorem flag_eq_one_iff (known : Prop) [Decidable known] : (if known then 1#1 else 0#1) = 1#1 ↔ known := by
  split_ifs with h <;> simp [h]

/-! ## A field read back where it was written -/

/-- The block with one field written at `CURSOR`, as it is when the host has set `CURSOR` back. -/
def Block.rewritten (b : Block) (n v : Nat) : Block := (b.writeFields [(n, v)]).rewound b.cursor

theorem holdsField_rewritten (b : Block) (n v : Nat) : holdsField (b.rewritten n v) b.cursor.toNat n v :=
  holdsField_writeFields (status := 0#8) (xs := []) (ys := []) (k := 0) rfl rfl

/-- A register at least as wide as the field reads the value that was written. -/
theorem toNat_readAt_rewritten {b : Block} {n v w : Nat} (hvalue : v < 2 ^ n) (hwidth : n ≤ w) :
    (BitVec.ofNat w ((b.rewritten n v).readAt 0 n)).toNat = v :=
  (toNat_ofNat_readAt hwidth 0).trans (fieldValue_of_holds (holdsField_rewritten b n v) hvalue)

section
variable {s t : State}

/-- A successful `WRF` had a value that fits its field and a field within the frame; with `CURSOR` set back, the field
is written and all else is as it was. -/
theorem setBack_of_wrf {w : BitVec 8} {n : Nat} (hn : w.toNat = n) (hexec : exec (.wrf w) s = .next t)
    (hstatus : t.block.status = 0#8) : s.block.fval.toNat < 2 ^ n ∧ s.block.fits n ∧
      { t with block := { t.block with cursor := s.block.cursor } } =
        { s with block := s.block.rewritten n s.block.fval.toNat } := by
  subst hn
  obtain ⟨b, hop, rfl⟩ := ok_of_status hexec hstatus
  obtain ⟨-, hop⟩ := passed_of_ok hop
  obtain ⟨hvalue, hop⟩ := passed_of_ok hop
  obtain ⟨hfits, rfl⟩ := fits_of_ok hop
  exact ⟨Nat.not_le.1 hvalue, hfits, rfl⟩

/-- A successful `REJ.WR` had a value of 8 bits and a field within the frame. -/
theorem setBack_of_rejWr (hexec : exec .rejWr s = .next t) (hstatus : t.block.status = 0#8) :
    s.block.rejCause.toNat < 2 ^ 8 ∧ s.block.fits 8 ∧
      { t with block := { t.block with cursor := s.block.cursor } } =
        { s with block := s.block.rewritten 8 s.block.rejCause.toNat } := by
  obtain ⟨b, hop, rfl⟩ := ok_of_status hexec hstatus
  obtain ⟨hvalue, hop⟩ := passed_of_ok hop
  obtain ⟨hfits, rfl⟩ := fits_of_ok hop
  exact ⟨Nat.not_le.1 hvalue, hfits, rfl⟩

end

/-! ## The statements -/

/-- Settles O27: the flag is set by the membership itself. -/
theorem svcRdReadsTheServiceType : Obligations.SvcRdReadsTheServiceType := by
  refine ⟨rfl, fun s => ?_⟩
  split_ifs with hover
  · exact exec_of_error ((operationOf_svcRd ..).trans (if_pos hover))
  · exact ⟨_, exec_of_ok ((operationOf_svcRd ..).trans (if_neg hover)), rfl, toNat_ofNat_readAt le_rfl 0,
      flag_eq_one_iff _, cursor_sum_toNat (by omega)⟩

/-- Settles O28: one field of 8 bits written at `CURSOR` within the frame. -/
theorem rejWrWritesTheRejectCause : Obligations.RejWrWritesTheRejectCause := by
  refine ⟨rfl, fun s => ?_⟩
  have hop := operationOf_rejWr s.params s.block
  split_ifs at hop ⊢ with hwide hover
  · exact exec_of_error hop
  · exact exec_of_error hop
  · exact ⟨_, exec_of_ok hop, rfl, holdsField_writeFields (xs := []) (ys := []) (k := 0) rfl rfl,
      frameKept_writeFields rfl, cursor_writeFields rfl (by omega)⟩

/-- Settles O29: a field of 32 bits fills `SRES`. -/
theorem sresRdReadsTheResponse : Obligations.SresRdReadsTheResponse := by
  refine ⟨rfl, fun s => ?_⟩
  have hop := operationOf_sresRd s.params s.block
  split_ifs at hop ⊢ with hover
  · exact exec_of_error hop
  · exact ⟨_, exec_of_ok hop, rfl, toNat_ofNat_readAt le_rfl 0, cursor_sum_toNat (by omega)⟩

/-- Settles O51: a successful write has met the bound of the read at the same address, and its value fits the field. -/
theorem fixedFieldRoundTrips : Obligations.FixedFieldRoundTrips := by
  refine ⟨fun s t hexec hstatus => ?svc, fun s t hexec hstatus => ?rej, fun s t hexec hstatus => ?sres⟩
  case svc =>
    obtain ⟨hvalue, hfits, hback⟩ := setBack_of_wrf (n := 4) rfl hexec hstatus
    rw [hback]
    exact ⟨_, exec_of_ok ((operationOf_svcRd ..).trans (if_neg (Nat.not_lt.2 hfits))), rfl,
      toNat_readAt_rewritten hvalue le_rfl⟩
  case rej =>
    obtain ⟨hvalue, hfits, hback⟩ := setBack_of_rejWr hexec hstatus
    rw [hback]
    exact ⟨_, exec_of_ok ((operationOf_rdf ..).trans ((if_neg (by decide)).trans (if_neg (Nat.not_lt.2 hfits)))), rfl,
      toNat_readAt_rewritten hvalue (by decide)⟩
  case sres =>
    obtain ⟨hvalue, hfits, hback⟩ := setBack_of_wrf (n := 32) rfl hexec hstatus
    rw [hback]
    exact ⟨_, exec_of_ok ((operationOf_sresRd ..).trans (if_neg (Nat.not_lt.2 hfits))), rfl,
      toNat_readAt_rewritten hvalue le_rfl⟩

end Sys2Proof.Machine
end

section
/-!
The 128-bit challenge of 44_composite_integer.md: its two halves in the frame (`RAND.WR` and `RAND.RD`, rules R128 and
R129) and its sixteen bytes in `RAND_EXP` (`RAND.EXP`, rule R130).
-/

namespace Sys2Proof.Machine

/-! ## The challenge in the frame -/

/-- The frame holds the challenge with these halves at `pos`, the high half first (rule R128). -/
structure HoldsChallenge (b : Block) (pos : Nat) (hi lo : BitVec 64) : Prop where
  high : holdsField b pos 64 hi.toNat
  low : holdsField b (pos + 64) 64 lo.toNat

theorem holdsChallenge_of_frame {b : Block} {f : Memory 8} {pos : Nat} {hi lo : BitVec 64}
    (h : b.frame = memWriteFields b.epoch f pos [(64, hi.toNat), (64, lo.toNat)]) : HoldsChallenge b pos hi lo where
  high := holdsField_of_frame (xs := []) (k := 0) h rfl
  low := holdsField_of_frame (xs := [(64, hi.toNat)]) h rfl

/-- The frame after `RAND.WR`. Irreducible, since to compare two blocks field by field is otherwise to run the write. -/
@[irreducible] def Block.challengeFrame (b : Block) : Memory 8 :=
  memWriteFields b.epoch b.frame b.cursor.toNat [(64, b.randHi.toNat), (64, b.randLo.toNat)]

/-- The block after `RAND.WR`. -/
def Block.challengeWritten (b : Block) : Block := { b.advance 128 with frame := b.challengeFrame }

section
variable (b : Block)

theorem challengeFrame_eq : b.challengeFrame =
    memWriteFields b.epoch b.frame b.cursor.toNat [(64, b.randHi.toNat), (64, b.randLo.toNat)] := by
  unfold Block.challengeFrame
  rfl

theorem writeFields_challenge :
    b.writeFields [(64, b.randHi.toNat), (64, b.randLo.toNat)] = b.challengeWritten := by
  rw [Block.writeFields, ← challengeFrame_eq]
  rfl

theorem holdsChallenge_challengeWritten : HoldsChallenge b.challengeWritten b.cursor.toNat b.randHi b.randLo :=
  holdsChallenge_of_frame (challengeFrame_eq b)

theorem frameKept_challengeWritten : frameKeptOutside b b.challengeWritten b.cursor.toNat 128 := by
  intro a ha
  have hframe : b.challengeWritten.frame = _ := challengeFrame_eq b
  rw [Block.bit, hframe]
  exact frameBit_memWriteFields_out ha

end

/-- The block after `RAND.RD`. -/
def Block.challengeRead (b : Block) : Block :=
  { b.advance 128 with randHi := BitVec.ofNat 64 (b.readAt 0 64), randLo := BitVec.ofNat 64 (b.readAt 64 64) }

/-- A register as wide as the field it is read from takes the value that the field holds. -/
theorem ofNat_readAt_of_holds {b : Block} {off n : Nat} {x : BitVec n}
    (h : holdsField b (b.cursor.toNat + off) n x.toNat) : BitVec.ofNat n (b.readAt off n) = x :=
  BitVec.eq_of_toNat_eq ((toNat_ofNat_readAt le_rfl off).trans (fieldValue_of_holds h x.isLt))

theorem challengeRead_of_holds {b : Block} {hi lo : BitVec 64} (h : HoldsChallenge b b.cursor.toNat hi lo) :
    b.challengeRead = { b.advance 128 with randHi := hi, randLo := lo } := by
  rw [Block.challengeRead, ofNat_readAt_of_holds (off := 0) h.high, ofNat_readAt_of_holds h.low]

/-- The block after a successful `RAND.WR`, when the host has set `CURSOR` back and has replaced both halves. -/
def Block.challengeReplaced (b : Block) (hi lo : BitVec 64) : Block :=
  { b.challengeWritten.rewound b.cursor with randHi := hi, randLo := lo }

theorem fits_challengeReplaced {b : Block} {n : Nat} (h : b.fits n) (hi lo : BitVec 64) :
    (b.challengeReplaced hi lo).fits n := h

theorem challengeRead_challengeReplaced (b : Block) (hi lo : BitVec 64) :
    (b.challengeReplaced hi lo).challengeRead = { b.challengeWritten with status := 0#8 } := by
  have hheld : HoldsChallenge (b.challengeReplaced hi lo) b.cursor.toNat b.randHi b.randLo :=
    holdsChallenge_of_frame (challengeFrame_eq b)
  rw [challengeRead_of_holds hheld]
  simp only [Block.challengeReplaced, Block.challengeWritten, Block.rewound, Block.advance]

/-! ## The bytes of a half -/

theorem halfByte_toNat (half : BitVec 64) (i : Nat) : (halfByte half i).toNat = half.toNat / 2 ^ (8 * i) % 256 := by
  rw [halfByte, BitVec.extractLsb'_toNat, Nat.shiftRight_eq_div_pow]

theorem halfByte_getLsbD (half : BitVec 64) (i : Nat) {j : Nat} (hj : j < 8) :
    (halfByte half i).getLsbD j = half.getLsbD (8 * i + j) := by
  simp [halfByte, hj]

/-- The half whose byte `i`, of weight `2^(8i)`, is the given one. -/
def halfOfBytes (byte : Nat → Octet) : BitVec 64 := BitVec.ofFnLE fun j => (byte (j.val / 8)).getLsbD (j.val % 8)

theorem halfByte_halfOfBytes (byte : Nat → Octet) {i : Nat} (hi : i < 8) : halfByte (halfOfBytes byte) i = byte i := by
  refine BitVec.eq_of_getLsbD_eq fun j hj => ?_
  have hbyte : (8 * i + j) / 8 = i := by omega
  have hbit : (8 * i + j) % 8 = j := by omega
  rw [halfByte_getLsbD _ _ hj, halfOfBytes, BitVec.getLsbD_ofFnLE, dif_pos (by omega), hbyte, hbit]

/-- A half is determined by its eight bytes. -/
theorem eq_of_halfByte_eq {half half' : BitVec 64} (h : ∀ i < 8, halfByte half i = halfByte half' i) :
    half = half' := by
  refine BitVec.eq_of_getLsbD_eq fun j hj => ?_
  have hbit := congrArg (fun byte => byte.getLsbD (j % 8)) (h (j / 8) (by omega))
  simpa only [halfByte_getLsbD _ _ (Nat.mod_lt j (by decide : 8 > 0)), Nat.div_add_mod] using hbit

theorem eq_halfOfBytes_iff {half : BitVec 64} {byte : Nat → Octet} :
    half = halfOfBytes byte ↔ ∀ i < 8, halfByte half i = byte i := by
  refine ⟨fun h i hi => h ▸ halfByte_halfOfBytes byte hi, fun h => eq_of_halfByte_eq fun i hi => ?_⟩
  rw [h i hi, halfByte_halfOfBytes byte hi]

/-- A half in the frame is its bytes, the most significant first. -/
theorem fieldValue_of_holds_half {b : Block} {pos i : Nat} {half : BitVec 64} (h : holdsField b pos 64 half.toNat)
    (hi : i < 8) : fieldValue b (pos + 8 * i) 8 = (halfByte half (7 - i)).toNat := by
  refine fieldValue_of_holds (fun j hj => ?_) (halfByte half (7 - i)).isLt
  rw [Nat.add_assoc, h _ (by omega), BitVec.testBit_toNat, BitVec.testBit_toNat, halfByte_getLsbD _ _ (by omega)]
  congr 1
  omega

/-! ## The exported bytes -/

/-- `RAND_EXP` after `RAND.EXP` of a pair of halves. -/
def exportedBytes (hi lo : BitVec 64) : Vector Octet 16 := exportRegisters (exportBuffer hi lo).reverse

/-- The net effect of the reversal: byte `k` of `RAND_EXP`, from the most significant byte of the high half on (rule
R130). -/
def bigEndianByte (hi lo : BitVec 64) (k : Nat) : Octet := if k < 8 then halfByte hi (7 - k) else halfByte lo (15 - k)

theorem bigEndianByte_high (hi lo : BitVec 64) {k : Nat} (h : k < 8) : bigEndianByte hi lo k = halfByte hi (7 - k) :=
  if_pos h

theorem bigEndianByte_low (hi lo : BitVec 64) {k : Nat} (h : 8 ≤ k) : bigEndianByte hi lo k = halfByte lo (15 - k) :=
  if_neg (Nat.not_lt.2 h)

theorem exportBuffer_length (hi lo : BitVec 64) : (exportBuffer hi lo).length = 16 := by simp [exportBuffer]

theorem exportRegisters_getElem (bytes : List Octet) {k : Nat} (h : k < 16) :
    (exportRegisters bytes)[k] = bytes.getD k 0#8 := by
  simp [exportRegisters]

theorem exportedBytes_getElem (hi lo : BitVec 64) {k : Nat} (h : k < 16) :
    (exportedBytes hi lo)[k] = bigEndianByte hi lo k := by
  rw [exportedBytes, exportRegisters_getElem _ h, List.getD_eq_getElem?_getD,
    List.getElem?_reverse (by rwa [exportBuffer_length]), exportBuffer_length, exportBuffer]
  by_cases hk : k < 8
  · rw [bigEndianByte_high hi lo hk, List.getElem?_append_right (by simp; omega)]
    simp [show 16 - 1 - k - 8 = 7 - k by omega, show 7 - k < 8 by omega]
  · rw [bigEndianByte_low hi lo (Nat.not_lt.1 hk), List.getElem?_append_left (by simp; omega)]
    simp [show 15 - k < 8 by omega]

/-- The octets of the challenge in the frame are the bytes of `RAND_EXP`. -/
theorem fieldValue_of_holdsChallenge {b : Block} {pos k : Nat} {hi lo : BitVec 64} (h : HoldsChallenge b pos hi lo)
    (hk : k < 16) : fieldValue b (pos + 8 * k) 8 = (bigEndianByte hi lo k).toNat := by
  by_cases hhigh : k < 8
  · rw [bigEndianByte_high hi lo hhigh, fieldValue_of_holds_half h.high hhigh]
  · have hlow := fieldValue_of_holds_half h.low (i := k - 8) (by omega)
    rwa [show pos + 64 + 8 * (k - 8) = pos + 8 * k by omega, show 7 - (k - 8) = 15 - k by omega,
      ← bigEndianByte_low hi lo (Nat.not_lt.1 hhigh)] at hlow

/-- The sixteen bytes fix both halves, byte by byte. -/
theorem exportedBytes_eq_iff {hi lo : BitVec 64} {bytes : Vector Octet 16} : exportedBytes hi lo = bytes ↔
    hi = halfOfBytes (fun i => bytes.toList.getD (7 - i) 0#8) ∧
      lo = halfOfBytes (fun i => bytes.toList.getD (15 - i) 0#8) := by
  have hbyte {k : Nat} (hk : k < 16) : bytes.toList.getD k 0#8 = bytes[k] := by simp [hk]
  rw [eq_halfOfBytes_iff, eq_halfOfBytes_iff]
  constructor
  · rintro rfl
    refine ⟨fun i hlt => ?_, fun i hlt => ?_⟩ <;> rw [hbyte (by omega), exportedBytes_getElem]
    · rw [bigEndianByte_high _ _ (by omega), show 7 - (7 - i) = i by omega]
    · rw [bigEndianByte_low _ _ (by omega), show 15 - (15 - i) = i by omega]
  · rintro ⟨hhigh, hlow⟩
    ext1 k hk
    rw [exportedBytes_getElem _ _ hk, ← hbyte hk]
    by_cases h : k < 8
    · rw [bigEndianByte_high hi lo h, hhigh _ (by omega), show 7 - (7 - k) = k by omega]
    · rw [bigEndianByte_low hi lo (Nat.not_lt.1 h), hlow _ (by omega), show 15 - (15 - k) = k by omega]

/-- Every sixteen bytes are exported from exactly one pair of halves. -/
theorem existsUnique_exportedBytes (bytes : Vector Octet 16) :
    ∃! halves : BitVec 64 × BitVec 64, exportedBytes halves.1 halves.2 = bytes :=
  ⟨(_, _), exportedBytes_eq_iff.2 ⟨rfl, rfl⟩, fun _ h => Prod.ext_iff.2 (exportedBytes_eq_iff.1 h)⟩

/-! ## The Operations -/

section
variable (p : Params) (b : Block)

theorem operationOf_randWr : operationOf .randWr p b =
    if b.frameLen.toNat < b.cursor.toNat + 128 then .error .frameOverflow else .ok b.challengeWritten := by
  simp only [operationOf, opRandWr, overrun_eq_true, writeFields_challenge]

theorem operationOf_randRd : operationOf .randRd p b =
    if b.frameLen.toNat < b.cursor.toNat + 128 then .error .truncated else .ok b.challengeRead := by
  simp only [operationOf, opRandRd, overrun_eq_true, Block.challengeRead]

theorem operationOf_randExp :
    operationOf .randExp p b = .ok { b with randExp := exportedBytes b.randHi b.randLo } := rfl

end

/-- A successful `RAND.WR` had 128 bits within the frame, and has written both halves. -/
theorem challengeWritten_of_randWr {s t : State} (hexec : exec .randWr s = .next t) (hstatus : t.block.status = 0#8) :
    s.block.fits 128 ∧ t = { s with block := { s.block.challengeWritten with status := 0#8 } } := by
  obtain ⟨b, hop, rfl⟩ := ok_of_status hexec hstatus
  rw [operationOf_randWr] at hop
  obtain ⟨hover, hop⟩ := passed_of_ok hop
  cases hop
  exact ⟨Nat.le_of_not_lt hover, rfl⟩

/-- `RAND.EXP` answers the bytes of the two halves, whatever it held before. -/
theorem exec_randExp (s : State) : exec .randExp s =
    .next { s with block := { s.block with randExp := exportedBytes s.block.randHi s.block.randLo, status := 0#8 } } :=
  exec_of_ok (operationOf_randExp ..)

/-! ## The statements -/

/-- Settles O30: two fields of 64 bits written one after the other at `CURSOR` within the frame. -/
theorem randWrWritesHighThenLow : Obligations.RandWrWritesHighThenLow := by
  refine ⟨rfl, fun s => ?_⟩
  have hop := operationOf_randWr s.params s.block
  split_ifs at hop ⊢ with hover
  · exact exec_of_error hop
  · have hheld := holdsChallenge_challengeWritten s.block
    exact ⟨_, exec_of_ok hop, rfl, hheld.high, hheld.low, frameKept_challengeWritten _, cursor_sum_toNat (by omega)⟩

/-- Settles O31: a field of 64 bits fills its half, and a successful write has met the bound of the read at the same
address. -/
theorem randRdReadsHighThenLow : Obligations.RandRdReadsHighThenLow := by
  refine ⟨rfl, fun s => ?read, fun s t hi lo hexec hstatus => ?inverse⟩
  case read =>
    have hop := operationOf_randRd s.params s.block
    split_ifs at hop ⊢ with hover
    · exact exec_of_error hop
    · exact ⟨_, exec_of_ok hop, rfl, toNat_ofNat_readAt le_rfl 0, toNat_ofNat_readAt le_rfl 64,
        cursor_sum_toNat (by omega)⟩
  case inverse =>
    obtain ⟨hfits, rfl⟩ := challengeWritten_of_randWr hexec hstatus
    have hfits := fits_challengeReplaced hfits hi lo
    have hread := (operationOf_randRd s.params _).trans (if_neg (Nat.not_lt.2 hfits))
    rw [challengeRead_challengeReplaced] at hread
    exact (exec_of_ok (s := { s with block := s.block.challengeReplaced hi lo }) hread :)

/-- Settles O32, by the sixteen bytes: they are the octets of the challenge in the frame, and they fix both halves. -/
theorem randExpExportsBigEndian : Obligations.RandExpExportsBigEndian := by
  refine ⟨rfl, fun s => ⟨⟨_, exec_randExp s, rfl, fun k hk => ?high, fun k hk => ?low, fun t hexec hstatus k => ?wire⟩,
    fun bytes => ?bijection⟩⟩
  case high =>
    exact (congrArg BitVec.toNat ((exportedBytes_getElem _ _ k.isLt).trans (bigEndianByte_high _ _ hk))).trans
      (halfByte_toNat _ _)
  case low =>
    exact (congrArg BitVec.toNat ((exportedBytes_getElem _ _ k.isLt).trans (bigEndianByte_low _ _ hk))).trans
      (halfByte_toNat _ _)
  case wire =>
    obtain ⟨-, rfl⟩ := challengeWritten_of_randWr hexec hstatus
    exact (fieldValue_of_holdsChallenge (holdsChallenge_challengeWritten s.block) k.isLt).trans
      (congrArg BitVec.toNat (exportedBytes_getElem _ _ k.isLt)).symm
  case bijection =>
    refine (existsUnique_congr fun halves => ?_).1 (existsUnique_exportedBytes bytes)
    rw [exec_randExp]
    exact ⟨fun h => h ▸ rfl, fun h => congrArg (·.block.randExp) (Host.Outcome.next.inj h)⟩

end Sys2Proof.Machine
end

section
/-!
The faults (60_exceptions.md): which words are illegal, the two ways a command ends, and that a fault has no effect on the
next command but its bit of `FLTS`.
-/

namespace Sys2Proof.Machine

/-! ## Illegal words -/

/-- The three cases of rule R65 by the two fields of the word, in numbers: an opcode outside the map of rule R63, a format N
row with an argument, a format W row with a width outside 1 to 64. -/
def IllegalFields (opc arg : Nat) : Prop :=
  (5 ≤ opc ∧ opc ≤ 0x0F) ∨ (0x13 ≤ opc ∧ opc ≤ 0x1F) ∨ (0x23 ≤ opc ∧ opc ≤ 0x2F) ∨ (0x34 ≤ opc ∧ opc ≤ 0x3F) ∨
    0x46 ≤ opc ∨ (opc ≠ 1 ∧ opc ≠ 2 ∧ arg ≠ 0) ∨ ((opc = 1 ∨ opc = 2) ∧ (arg = 0 ∨ 64 < arg))

/-- The fields of a command are those of no illegal word. -/
theorem not_illegalFields_of_wf {i : Instr} (h : i.wf = true) : ¬ IllegalFields (opcOf i).toNat (argOf i).toNat := by
  cases i with
  | rdf w | wrf w =>
    have hwidth : 1 ≤ w.toNat ∧ w.toNat ≤ 64 := of_decide_eq_true h
    simp only [IllegalFields, opcOf, argOf, BitVec.toNat_ofNat]
    omega
  | _ => simp [IllegalFields, opcOf, argOf]

theorem opcField_toNat (c : CommandWord) : (opcField c).toNat = c.toNat / 256 := by
  have hc := c.isLt
  simp only [opcField, BitVec.extractLsb'_toNat, Nat.shiftRight_eq_div_pow]
  omega

theorem argField_toNat (c : CommandWord) : (argField c).toNat = c.toNat % 256 := by
  simp [argField, BitVec.extractLsb'_toNat]

/-- A word that decodes is the word of a command, whose fields are legal. -/
theorem decode_eq_error_of_illegalFields {c : CommandWord} (h : IllegalFields (c.toNat / 256) (c.toNat % 256)) :
    ∃ r, decode c = .error r := by
  cases hd : decode c with
  | error r => exact ⟨r, rfl⟩
  | ok i =>
    obtain ⟨hwf, rfl⟩ := decode_sound hd
    rw [← opcField_toNat, ← argField_toNat, opcField_encode, argField_encode] at h
    exact absurd h (not_illegalFields_of_wf hwf)

/-! ## The end of a command -/

/-- A command succeeds and keeps `FLTS`, or enters a fault (rule R139). -/
theorem exec_ends (i : Instr) (s : State) :
    (∃ b, exec i s = .next { s with block := b } ∧ b.status = 0#8 ∧ b.flts = s.block.flts) ∨
      ∃ f, exec i s = .next (s.raise f) := by
  cases hop : operationOf i s.params s.block with
  | error f => exact .inr ⟨f, exec_of_error hop⟩
  | ok b =>
    obtain ⟨-, hflts, -⟩ := operation_keeps hop
    exact .inl ⟨_, exec_of_ok hop, rfl, hflts⟩

/-! ## The command after a fault -/

/-- The entry of a fault changes the flags alone. -/
theorem Block.raise_eq_withFlags (b : Block) (c : FaultCode) :
    b.raise c = b.withFlags (statusOf c) (fltsWith b.flts c) := rfl

theorem fltsWith_comm (fl : BitVec 16) (c f : FaultCode) : fltsWith (fltsWith fl c) f = fltsWith (fltsWith fl f) c := by
  simp only [fltsWith, BitVec.or_assoc, BitVec.or_comm (1#16 <<< faultNumber c)]

theorem fltsWith_idem (fl : BitVec 16) (f : FaultCode) : fltsWith (fltsWith fl f) f = fltsWith fl f := by
  simp only [fltsWith, BitVec.or_assoc, BitVec.or_self]

/-- The state with the bit of `c` set in `FLTS`. -/
def State.flagged (s : State) (c : FaultCode) : State :=
  { s with block := { s.block with flts := fltsWith s.block.flts c } }

/-- The second of two faults leaves its own code, and both bits. -/
theorem State.raise_raise (s : State) (c f : FaultCode) : (s.raise c).raise f = (s.raise f).flagged c := by
  simp only [State.raise, State.flagged, Block.raise, fltsWith_comm _ c f]

/-- An entered fault's bit is set already. -/
theorem State.flagged_raise (s : State) (f : FaultCode) : (s.raise f).flagged f = s.raise f := by
  simp only [State.raise, State.flagged, Block.raise, fltsWith_idem]

/-- No Operation reads the flags, so the command after a fault ends as it would have, with the fault's bit besides. -/
theorem exec_raise {i : Instr} {s t : State} (c : FaultCode) (h : exec i s = .next t) :
    exec i (s.raise c) = .next (t.flagged c) := by
  have hop := operationOf_withFlags s.block (statusOf c) (fltsWith s.block.flts c) i s.params
  cases hs : operationOf i s.params s.block with
  | error f =>
    rw [hs] at hop
    rw [exec_of_error hs] at h
    cases h
    rw [← State.raise_raise]
    exact exec_of_error (s := s.raise c) hop
  | ok b =>
    obtain ⟨-, hflts, -⟩ := operation_keeps hs
    rw [hs] at hop
    rw [exec_of_ok hs] at h
    cases h
    simp only [State.flagged, hflts]
    exact exec_of_ok (s := s.raise c) hop

/-! ## The statements -/

/-- Settles O3: no illegal word is the encoding of a command, so the decoder rejects it before any state is read. -/
theorem illegalWordIsDecidedFromTheWordAlone : Obligations.IllegalWordIsDecidedFromTheWordAlone := by
  intro opc arg s hopc harg hillegal
  have hword : (BitVec.ofNat 16 (256 * opc + arg)).toNat = 256 * opc + arg := Nat.mod_eq_of_lt (by omega)
  have hfields : (256 * opc + arg) / 256 = opc ∧ (256 * opc + arg) % 256 = arg := by omega
  obtain ⟨r, hr⟩ := decode_eq_error_of_illegalFields (c := BitVec.ofNat 16 (256 * opc + arg))
    (by rw [hword, hfields.1, hfields.2]; exact hillegal)
  exact issue_of_error hr s

/-- Settles O12: the code of the fault a command enters is the number of that fault. -/
theorem commandEndsOkOrEntersOneFault : Obligations.CommandEndsOkOrEntersOneFault := by
  intro i s
  obtain ⟨b, h, hok⟩ | ⟨f, h⟩ := exec_ends i s
  · exact ⟨b, h, .inl hok⟩
  · obtain ⟨hone, hnine⟩ := faultNumber_range f
    exact ⟨_, h, .inr ⟨faultNumber f, hone, hnine, rfl⟩⟩

/-- Settles O20: a repeated faulting command is the command after its own fault, whose bit is set already. -/
theorem faultDoesNotChangeTheNextCommand : Obligations.FaultDoesNotChangeTheNextCommand := by
  refine ⟨fun i s t c h => exec_raise c h, fun i s t h hne => ?_⟩
  obtain ⟨f, rfl⟩ | ⟨b, -, rfl⟩ := exec_cases h
  · exact (exec_raise f h).trans (congrArg _ (s.flagged_raise f))
  · exact absurd rfl hne

/-- Settles O53: the entries by the table of rule R138; a word that decodes ends as its command does, any other in the entry
of `IllegalCommand`. -/
theorem eachFaultWritesItsOwnCode : Obligations.EachFaultWritesItsOwnCode := by
  refine ⟨fun s b hb => ?_, fun c s => ?_⟩
  · subst hb
    exact ⟨rfl, rfl, rfl, rfl, rfl, rfl, rfl, rfl, rfl⟩
  · cases hd : decode c with
    | error r => exact .inr ⟨.illegalCommand, issue_of_error hd s⟩
    | ok i => rw [issue_of_ok hd]; exact (exec_ends i s).imp_left fun ⟨b, h, hok⟩ => ⟨_, h, hok⟩

end Sys2Proof.Machine
end

section
/-!
The consequences of the reset values (70_reset_and_hazards.md, rule R157): with `FRAME_LEN` 0 no command gets past its bound,
and the block that a reset leaves is a fixed point of `NOP`, `SEG` and `L8M`.
-/

namespace Sys2Proof.Machine

/-! ## `FRAME_LEN` 0 -/

/-- Any bit at `CURSOR` ends beyond an empty frame. -/
theorem overrun_of_frameLen_zero {b : Block} (h : b.frameLen = 0#16) {n : Nat} (hn : 0 < n) :
    b.frameLen.toNat < b.cursor.toNat + n := by
  rw [h]
  exact Nat.add_pos_right _ hn

/-- A command that moves frame bits and succeeds moves at least one: a field of width 0 is illegal, and `NN.RD` with
`NN_OCTETS` 0 faults with `BadLength`. -/
theorem bitsMoved_pos_of_ok {i : Instr} {s : State} {b : Block} {n : Nat} (hwf : i.wf = true)
    (hop : operationOf i s.params s.block = .ok b) (hn : bitsMoved i s = some n) : 0 < n := by
  cases i
  case rdf w | wrf w =>
    obtain ⟨hwidth, -⟩ : 1 ≤ w.toNat ∧ w.toNat ≤ 64 := of_decide_eq_true hwf
    cases hn
    exact hwidth
  case nnRd =>
    obtain ⟨hoctets, -⟩ := opNnRd_ok hop
    cases hn
    omega
  case nnWr =>
    simp only [bitsMoved] at hn
    split_ifs at hn <;> cases hn <;> omega
  case svcRd | rejWr | sresRd | randWr | randRd | tztWr | tztRd => cases hn; decide
  case nop | seg | l8m | randExp | a7Enc | a7Dec | bcdEnc | bcdDec | smEnc | smDec => cases hn

/-- A success would have moved its bits within the empty frame. -/
theorem exec_faults_of_frameLen_zero {i : Instr} {s : State} {n : Nat} (hlen : s.block.frameLen = 0#16)
    (hn : bitsMoved i s = some n) (hwf : i.wf = true) : ∃ c, exec i s = .next (s.raise c) := by
  cases hop : operationOf i s.params s.block with
  | error c => exact ⟨c, exec_of_error hop⟩
  | ok b =>
    obtain ⟨hmoves, -⟩ := cursor_of_successChanges (successChanges_of_ok hop)
    obtain ⟨hfits, -⟩ := hmoves n hn
    have hover := overrun_of_frameLen_zero hlen (bitsMoved_pos_of_ok hwf hop hn)
    exact absurd hfits (Nat.not_le_of_lt hover)

/-! ## The block after a reset -/

/-- A window of fewer than 8 bits has no complete group to reverse. -/
theorem normalise_of_lt {len : Nat} (h : len < 8) (e : Nat) (f : Memory 8) (base : Nat) : normalise e f base len = f := by
  simp [normalise, Nat.div_eq_of_lt h, frameWriteBits]

theorem operationOf_seg_afterReset (p : Params) (e : Nat) :
    operationOf .seg p (Block.afterReset e) = .ok (Block.afterReset e) :=
  (operationOf_seg ..).trans (if_neg (Nat.lt_irrefl 0))

theorem operationOf_l8m_afterReset (p : Params) (e : Nat) :
    operationOf .l8m p (Block.afterReset e) = .ok (Block.afterReset e) := by
  have hframe : normalise e [] 0 0 = [] := normalise_of_lt (by decide) e [] 0
  have hop : operationOf .l8m p (Block.afterReset e) = .ok { Block.afterReset e with frame := normalise e [] 0 0 } :=
    (operationOf_l8m ..).trans (if_neg (Nat.lt_irrefl 0))
  rwa [hframe] at hop

/-- A command whose Operation answers the block after a reset itself leaves the state as it is, for `STATUS` is 0 there. -/
theorem exec_of_ok_afterReset {i : Instr} {s : State} {e : Nat} (hs : s.block = Block.afterReset e)
    (hop : operationOf i s.params (Block.afterReset e) = .ok (Block.afterReset e)) : exec i s = .next s := by
  obtain ⟨p, b, pending, lastRead⟩ := s
  cases hs
  exact exec_of_ok hop

/-- The four commands without a fault condition succeed in every state. -/
theorem exec_succeeds_of_no_fault {i : Instr} (h : i = .a7Dec ∨ i = .bcdDec ∨ i = .smDec ∨ i = .randExp) (s : State) :
    ∃ t, exec i s = .next t ∧ t.block.status = 0#8 := by
  obtain rfl | rfl | rfl | rfl := h
  · exact ⟨_, exec_of_ok (operationOf_a7Dec ..), rfl⟩
  · exact ⟨_, exec_of_ok (operationOf_bcdDec ..), rfl⟩
  · exact ⟨_, exec_of_ok (operationOf_smDec rfl), rfl⟩
  · exact ⟨_, exec_of_ok (operationOf_randExp ..), rfl⟩

/-! ## The statement -/

/-- Settles O21: the reads and `RAND.WR` check the bound first, a success of any other command would have passed its bound,
and the window after a reset is empty and lies at `CURSOR`. -/
theorem afterResetNoFrameBitMoves : Obligations.AfterResetNoFrameBitMoves := by
  refine ⟨fun s hlen => ?_, fun s e hs => ?_⟩
  · have hover : ∀ {n : Nat}, 0 < n → s.block.frameLen.toNat < s.block.cursor.toNat + n :=
      overrun_of_frameLen_zero hlen
    refine ⟨fun w hone hmax => exec_of_error ?_, exec_of_error ?_, exec_of_error ?_, exec_of_error ?_,
      exec_of_error ?_, exec_of_error ?_, fun i n hn hwf => exec_faults_of_frameLen_zero hlen hn hwf⟩
    · exact (operationOf_rdf ..).trans ((if_neg (by omega)).trans (if_pos (hover hone)))
    · exact (operationOf_svcRd ..).trans (if_pos (hover (by decide)))
    · exact (operationOf_sresRd ..).trans (if_pos (hover (by decide)))
    · exact (operationOf_randRd ..).trans (if_pos (hover (by decide)))
    · exact (operationOf_tztRd ..).trans (if_pos (hover (by decide)))
    · exact (operationOf_randWr ..).trans (if_pos (hover (by decide)))
  · exact ⟨congrArg Block.frameLen hs, exec_of_ok_afterReset hs rfl,
      exec_of_ok_afterReset hs (operationOf_seg_afterReset _ e),
      exec_of_ok_afterReset hs (operationOf_l8m_afterReset _ e), fun i hi => exec_succeeds_of_no_fault hi s⟩

end Sys2Proof.Machine
end
